-- ==== Sys2Proof/Word.lean ====
section
/-! DEFINITION. The word types of the block (00_scope.md R10: every value is unsigned, bit 0 least significant). -/

namespace Sys2Proof

/-- A byte of a frame buffer. -/
abbrev Byte := BitVec 8

/-- A 32-bit header word, and an HDR.ENCODE operand (HDR_W and ENC_IN_W of R9). -/
abbrev Word := BitVec 32

end Sys2Proof
end

