-- ==== Sys2Proof/Config.lean ====
section
/-! DEFINITION. What is fixed for an instance: the parameters of 00_scope.md R9, and the free values of the ports the
spec leaves unspecified. -/

namespace Sys2Proof

/-- DLC_FIELD_MODE (10_state.md R23): which bits of byte 21 form the DLC. -/
inductive DlcFieldMode where
  | lowNibble
  | fullByte
  deriving DecidableEq, Repr

/-- The result ports other than `out.status` (10_state.md R25): the ports that can be unspecified (R26). -/
inductive OutPort where
  | priority | source | destination | destPort | sourcePort | reserved | flags
  | word
  | frameType | errorState | bitRateSwitch | extendedDataLength | isExtendedId | isRemoteRequest | canId | dlc
  | len
  | data (i : Nat)
  deriving DecidableEq, Repr

namespace Config

/-- The default of DLC_FIELD_MODE (R9, R23, R33). -/
def defaultMode : DlcFieldMode := .lowNibble

/-- FRAME_HDR_BYTES (R9): the offset of the first data byte. -/
abbrev frameHdrBytes : Nat := 28

/-- MAX_FRAME_READ (R9): one more than the highest offset the decoder can read. -/
abbrev maxFrameRead : Nat := 92

/-- DESIGN CHOICE (log 5). The value of an unspecified result port `p` of width `w` in response number `draw`:
"a draw under no law" (10_state.md R26), so it has no body. -/
opaque freeBits (w : Nat) (p : OutPort) (draw : Nat) : BitVec w

end Config
end Sys2Proof
end

