-- ==== Sys2Proof/Syntax.lean ====
section
/-! DEFINITION. The instructions: one constructor for each row of spec/opcode_table.json, and the request as the
hardware carries it, one field for each operand port. -/

namespace Sys2Proof

/-- The frame buffer operand (10_state.md R24, 20_memory.md R44): its length `n` and the bytes the snapshot holds, offset
0 first. R24 lets an instance hold only the bytes below min(n, 92), so `bytes` may be shorter than `len` (log 8). -/
structure FrameBuf where
  len   : BitVec 16
  bytes : List Byte
  deriving DecidableEq, Repr

/-- A gateway frame less its type tag (R44, R65): bytes 0 to 2, and the bytes from offset 4 on; the tag at offset 3 is the
constructor's. -/
structure GwFrame where
  len  : BitVec 16
  b0   : Byte
  b1   : Byte
  b2   : Byte
  rest : List Byte
  deriving DecidableEq, Repr

/-- The buffer of a gateway frame whose type tag is `tag` (R44: the tag at offset 3). -/
def GwFrame.buf (f : GwFrame) (tag : Byte) : FrameBuf :=
  { len := f.len, bytes := f.b0 :: f.b1 :: f.b2 :: tag :: f.rest }

/-- The instructions. The four operations are the requests of R60; the four `gw` rows are the CAN.DECODE requests whose
buffer has that recognized tag (R65, R101; log 1). -/
inductive Instr where
  /-- HDR.DECODE (R82). -/
  | hdrDecode (hdrWord : Word)
  /-- HDR.ENCODE (R83). -/
  | hdrEncode (priority source destination destPort sourcePort reserved flags : Word)
  /-- CAN.DECODE (R106). -/
  | canDecode (buf : FrameBuf)
  /-- DLC.LEN (R102). -/
  | dlcLen (dlc : Byte)
  /-- GW.CAN20, tag 0x80. -/
  | gwCan20 (frame : GwFrame)
  /-- GW.CAN20_CRC, tag 0x81. -/
  | gwCan20Crc (frame : GwFrame)
  /-- GW.CANFD, tag 0x90. -/
  | gwCanfd (frame : GwFrame)
  /-- GW.CANFD_CRC, tag 0x91. -/
  | gwCanfdCrc (frame : GwFrame)
  deriving DecidableEq, Repr

/-- A request: the op field and every operand port of 10_state.md R24. The ports the op does not read hold whatever the
Host drives on them. -/
structure Request where
  op          : BitVec 2
  hdrWord     : Word
  priority    : Word
  source      : Word
  destination : Word
  destPort    : Word
  sourcePort  : Word
  reserved    : Word
  flags       : Word
  bufLen      : BitVec 16
  buf         : List Byte
  dlc         : Byte
  deriving DecidableEq, Repr

/-- The `in.buf_len` and `in.buf` ports as one operand. -/
def Request.frameBuf (r : Request) : FrameBuf := { len := r.bufLen, bytes := r.buf }

end Sys2Proof
end

