-- ==== Sys2Proof/Machine/Tables.lean ====
section
/-! DEFINITION. The spec's two constant tables: the DLC table and the frame type tags; and which buffers the operand ports
can carry. -/

namespace Sys2Proof.Machine

/-- DLC_TABLE (10_state.md R22): 16 entries, 7 bits each. -/
def dlcTable : Vector (BitVec 7) 16 := #v[0, 1, 2, 3, 4, 5, 6, 7, 8, 12, 16, 20, 24, 32, 48, 64]

/-- The tag of GW.CAN20 (R65, R101). -/
def tagCan20 : Byte := 0x80

/-- The tag of GW.CAN20_CRC. -/
def tagCan20Crc : Byte := 0x81

/-- The tag of GW.CANFD. -/
def tagCanfd : Byte := 0x90

/-- The tag of GW.CANFD_CRC. -/
def tagCanfdCrc : Byte := 0x91

/-- `Recognized(t)` (41_can_gateway.md R101). -/
def recognized (t : Byte) : Bool :=
  t == tagCan20 || t == tagCan20Crc || t == tagCanfd || t == tagCanfdCrc

/-- The snapshot holds every byte the decoder can read: the bytes at offsets below min(n, 92) (R24, R45). -/
def holdsReadable (b : FrameBuf) : Bool :=
  decide (min b.len.toNat Config.maxFrameRead ≤ b.bytes.length)

/-- The snapshot holds no byte at or past `n`: `in.buf` is `in.buf[0..n-1]` (R24). -/
def withinLength (b : FrameBuf) : Bool :=
  decide (b.bytes.length ≤ b.len.toNat)

/-- The operand ports can carry this buffer (R24; log 8). -/
def presentable (b : FrameBuf) : Bool := holdsReadable b && withinLength b

/-- The buffer is a frame with a type tag of a row of its own: `n >= 4` and byte 3 is recognized (R106 steps 1 and 2). -/
def hasRecognizedTag (b : FrameBuf) : Bool :=
  decide (4 ≤ b.len.toNat) && (match b.bytes[3]? with | some t => recognized t | none => false)

end Sys2Proof.Machine
end

