-- ==== Sys2Proof/WellFormed.lean ====
section
/-! DEFINITION. Which instructions are well formed: the ones some request on the operand ports is decoded to. -/

namespace Sys2Proof

/-- Why an instruction is ill formed. -/
inductive IllFormed where
  /-- A byte below min(n, 92) is missing from the snapshot (10_state.md R24). -/
  | bytesMissing
  /-- The snapshot holds more than `n` bytes (R24). -/
  | bytesPastLength
  /-- A gateway frame of fewer than 4 bytes has no type tag (41_can_gateway.md R106 step 1). -/
  | frameWithoutTag
  /-- A CAN.DECODE buffer with a recognized tag is an instruction of the tag's own row (log 1). -/
  | tagHasItsOwnRow
  deriving DecidableEq, Repr

/-- The checks on a frame buffer operand. -/
def FrameBuf.check (b : FrameBuf) : Option IllFormed :=
  if !Machine.holdsReadable b then some .bytesMissing
  else if !Machine.withinLength b then some .bytesPastLength
  else none

/-- The checks on a gateway frame. -/
def GwFrame.check (f : GwFrame) : Option IllFormed :=
  if f.len.toNat < 4 then some .frameWithoutTag else (f.buf 0).check

/-- What is wrong with an instruction, if anything. -/
def Instr.check : Instr → Option IllFormed
  | .hdrDecode _ => none
  | .hdrEncode _ _ _ _ _ _ _ => none
  | .canDecode b => if Machine.hasRecognizedTag b then some .tagHasItsOwnRow else b.check
  | .dlcLen _ => none
  | .gwCan20 f => f.check
  | .gwCan20Crc f => f.check
  | .gwCanfd f => f.check
  | .gwCanfdCrc f => f.check

/-- The instruction is well formed. -/
def Instr.wf (i : Instr) : Bool := i.check.isNone

end Sys2Proof
end

