-- ==== Sys2Proof/Decode.lean ====
section
/-! DEFINITION. From a request on the operand ports to an instruction, and back. The op field is 30_encoding.md R60, the
frame type tag R65. -/

namespace Sys2Proof

/-- Why the decoder rejects a request: the operand ports of 10_state.md R24 cannot carry its buffer (log 8). No op and no
tag is rejected here: every op is an operation (R66), and an unknown tag is CAN.DECODE's own error (R132). -/
inductive DecodeError where
  | bytesMissing
  | bytesPastLength
  deriving DecidableEq, Repr

/-- The op field of each operation (R60). -/
def opHdrDecode : BitVec 2 := 0b00

/-- HDR.ENCODE's op field (R60). -/
def opHdrEncode : BitVec 2 := 0b01

/-- CAN.DECODE's op field (R60). -/
def opCanDecode : BitVec 2 := 0b10

/-- DLC.LEN's op field (R60). -/
def opDlcLen : BitVec 2 := 0b11

/-- The instruction of a CAN.DECODE request (log 1): the row of its tag when `n >= 4` and the tag is recognized (R106 steps
1 and 2, R65), and the plain CAN.DECODE otherwise. -/
def decodeBuffer (b : FrameBuf) : Instr :=
  match b.bytes with
  | b0 :: b1 :: b2 :: t :: rest =>
    let f : GwFrame := { len := b.len, b0 := b0, b1 := b1, b2 := b2, rest := rest }
    if b.len.toNat < 4 then .canDecode b
    else if t = Machine.tagCan20 then .gwCan20 f
    else if t = Machine.tagCan20Crc then .gwCan20Crc f
    else if t = Machine.tagCanfd then .gwCanfd f
    else if t = Machine.tagCanfdCrc then .gwCanfdCrc f
    else .canDecode b
  | _ => .canDecode b

/-- The decoder, total on every request. Only the ports of the selected op are read (R24). -/
def decode (r : Request) : Except DecodeError Instr :=
  if r.op = opHdrDecode then .ok (.hdrDecode r.hdrWord)
  else if r.op = opHdrEncode then
    .ok (.hdrEncode r.priority r.source r.destination r.destPort r.sourcePort r.reserved r.flags)
  else if r.op = opCanDecode then
    if !Machine.holdsReadable r.frameBuf then .error .bytesMissing
    else if !Machine.withinLength r.frameBuf then .error .bytesPastLength
    else .ok (decodeBuffer r.frameBuf)
  else .ok (.dlcLen r.dlc)

/-- A request with the given op and every operand port zero. -/
def blankRequest (op : BitVec 2) : Request :=
  { op := op, hdrWord := 0, priority := 0, source := 0, destination := 0, destPort := 0, sourcePort := 0, reserved := 0,
    flags := 0, bufLen := 0, buf := [], dlc := 0 }

/-- A CAN.DECODE request for a buffer. -/
def bufferRequest (b : FrameBuf) : Request :=
  { blankRequest opCanDecode with bufLen := b.len, buf := b.bytes }

/-- The encoder. The ports the op does not read are zero (DESIGN CHOICE, log 10). -/
def encode : Instr → Request
  | .hdrDecode w => { blankRequest opHdrDecode with hdrWord := w }
  | .hdrEncode p s d dp sp rs fl =>
    { blankRequest opHdrEncode with
      priority := p, source := s, destination := d, destPort := dp, sourcePort := sp, reserved := rs, flags := fl }
  | .canDecode b => bufferRequest b
  | .dlcLen d => { blankRequest opDlcLen with dlc := d }
  | .gwCan20 f => bufferRequest (f.buf Machine.tagCan20)
  | .gwCan20Crc f => bufferRequest (f.buf Machine.tagCan20Crc)
  | .gwCanfd f => bufferRequest (f.buf Machine.tagCanfd)
  | .gwCanfdCrc f => bufferRequest (f.buf Machine.tagCanfdCrc)

/-- The shortest gateway frame with this tag: 28 bytes, every byte but the tag zero (R44, R68). -/
def tagFrame (tag : Byte) : FrameBuf :=
  { len := 28, bytes := [0, 0, 0, tag] ++ List.replicate 24 0 }

/-- The request a word of spec/opcode_table.json stands for (DESIGN CHOICE, log 9). A REQ row's word is the op field, with
every operand port zero; a GWFRAME row's word is byte 3 of a frame, presented as a CAN.DECODE of the shortest frame with
that tag. -/
def tableRequest (nbits w : Nat) : Option Request :=
  let v := w % 2 ^ nbits
  if v < 4 then some (blankRequest (BitVec.ofNat 2 v))
  else if v < 256 && Machine.recognized (BitVec.ofNat 8 v) then some (bufferRequest (tagFrame (BitVec.ofNat 8 v)))
  else none

/-- The instruction the decoder reads from a table word. -/
def decodeTableWord (nbits w : Nat) : Option Instr :=
  match tableRequest nbits w with
  | some r =>
    match decode r with
    | .ok i => some i
    | .error _ => none
  | none => none

end Sys2Proof
end

