-- ==== Sys2Proof/Machine/State.lean ====
section
/-! DEFINITION. The state of the block (10_state.md R32, R22, R23) as plain data, the Host's queue of actions, and the
reasons to stop. -/

namespace Sys2Proof.Machine

/-- The operation a response answers (R25: "the op that produced it"). -/
inductive Op where
  | hdrDecode
  | hdrEncode
  | canDecode
  | dlcLen
  deriving DecidableEq, Repr

/-- The status of a response (60_exceptions.md R130); `Status.code` gives the 2-bit port value. -/
inductive Status where
  | ok
  | truncated
  | unknownFrameType
  | invalidDlc
  deriving DecidableEq, Repr

/-- A response: the op it answers, the status port and every result port of 10_state.md R25. A port that is unspecified
(R26) holds a free value. `out.data` has MAX_LEN = 64 entries (R9). -/
structure Response where
  op                 : Op
  status             : Status
  priority           : BitVec 2
  source             : BitVec 5
  destination        : BitVec 5
  destPort           : BitVec 6
  sourcePort         : BitVec 6
  reserved           : BitVec 4
  flags              : BitVec 4
  word               : Word
  frameType          : Byte
  errorState         : Bool
  bitRateSwitch      : Bool
  extendedDataLength : Bool
  isExtendedId       : Bool
  isRemoteRequest    : Bool
  canId              : BitVec 30
  dlc                : Byte
  len                : BitVec 7
  data               : Vector Byte 64
  deriving DecidableEq, Repr

/-- AddressHeader (40_header_codec.md R80). -/
structure AddressHeader where
  priority    : BitVec 2
  source      : BitVec 5
  destination : BitVec 5
  destPort    : BitVec 6
  sourcePort  : BitVec 6
  reserved    : BitVec 4
  flags       : BitVec 4
  deriving DecidableEq, Repr

/-- CanFrame (41_can_gateway.md R100). `data` has `DLC_TABLE[dlc]` bytes. -/
structure CanFrame where
  frameType          : Byte
  errorState         : Bool
  bitRateSwitch      : Bool
  extendedDataLength : Bool
  isExtendedId       : Bool
  isRemoteRequest    : Bool
  canId              : BitVec 30
  dlc                : Byte
  data               : List Byte
  deriving DecidableEq, Repr

/-- What a response says: its specified ports alone (R26). -/
inductive Answer where
  | header (h : AddressHeader)
  | word (w : Word)
  | frame (f : CanFrame)
  | len (l : BitVec 7)
  | error (e : Status)
  deriving DecidableEq, Repr

/-- What the Host does next (log 2). -/
inductive HostAction where
  /-- HostIssue(req) (R32), as soon as it is enabled. -/
  | issue (r : Request)
  /-- Wait until nothing is pending, so that a response can be read; reading changes nothing (R32). -/
  | await
  /-- Assert reset now (70_reset_and_hazards.md R150, R152). -/
  | reset
  deriving DecidableEq, Repr

/-- The state. `cfg`, `pending` and `resp` are R32's BlockState and `dlcTable` is R22's ROM. `inputs` (log 2) and `draws`
(log 5) are the model's own. -/
structure State where
  /-- DLC_FIELD_MODE (R23). -/
  cfg      : DlcFieldMode
  /-- The DLC table (R22), read-only. -/
  dlcTable : Vector (BitVec 7) 16
  /-- The accepted and unanswered request (R32), a snapshot (R155). -/
  pending  : Option Request
  /-- The last response, until the next request is accepted (R32). -/
  resp     : Option Response
  /-- The Host's actions still to come, the next one first (log 2). -/
  inputs   : List HostAction
  /-- How many responses have been given: the number of the next response's free draws (log 5). -/
  draws    : Nat
  deriving DecidableEq, Repr

/-- Why the machine stops with a fault. -/
inductive Fault where
  /-- A frame buffer read at an offset for which the operand holds no byte. Raised by CAN.DECODE and the GW rows on a
  buffer that is not presentable; R45 and R109 rule it out for every presentable one. Safe: the model stops (log 8). -/
  | bufferRead
  deriving DecidableEq, Repr

/-- Why the machine refuses. -/
inductive Refusal where
  /-- An instruction with no meaning yet, by its mnemonic. Raised by `exec`. Safe: the model stops. -/
  | notModelled (mnemonic : String)
  /-- A request that the operand ports of R24 cannot carry. Raised by HostIssue and by BlockRespond. Safe: the model stops
  (93_implementation_defined.md U16: refuse; log 8). -/
  | unpresentable (e : DecodeError)
  deriving DecidableEq, Repr

/-- How a step ends. -/
abbrev StepOutcome := Host.Outcome State Fault Refusal

/-- The state right after reset of an instance strapped to `m` (R33, R150). -/
def State.resetFor (m : DlcFieldMode) : State :=
  { cfg := m, dlcTable := Machine.dlcTable, pending := none, resp := none, inputs := [], draws := 0 }

/-- The state right after reset: the instance with the default DLC_FIELD_MODE (R33, R150; log 6). -/
def State.reset : State := State.resetFor Config.defaultMode

end Sys2Proof.Machine
end

