-- ==== Sys2Proof/Machine/Operands.lean ====
section
/-! DEFINITION. The operand forms: the fields of the header word (40_header_codec.md R81), the reads of the frame buffer
(20_memory.md R44, 00_scope.md R12) and the DLC (R102, R103). -/

namespace Sys2Proof.Machine

/-- `w[lo+width-1 : lo]` (R10). -/
def slice (lo width : Nat) (w : Word) : BitVec width := w.extractLsb' lo width

/-- `(v mod 2^width) << lo` (R83, R63): one operand of HDR.ENCODE put in its place. -/
def packField (lo width : Nat) (v : Word) : Word := ((v.setWidth width).setWidth 32) <<< lo

/-- The fields of a header word (R81, R82). -/
def headerOfWord (w : Word) : AddressHeader :=
  { priority := slice 30 2 w, source := slice 25 5 w, destination := slice 20 5 w, destPort := slice 14 6 w,
    sourcePort := slice 8 6 w, reserved := slice 4 4 w, flags := slice 0 4 w }

/-- The header word of seven operands (R83). -/
def wordOfFields (priority source destination destPort sourcePort reserved flags : Word) : Word :=
  packField 30 2 priority ||| packField 25 5 source ||| packField 20 5 destination ||| packField 14 6 destPort |||
    packField 8 6 sourcePort ||| packField 4 4 reserved ||| packField 0 4 flags

/-- The header word of four bytes in transmission order (20_memory.md R40); also `MemRead(off, 4)` (R41). -/
def bigEndian4 (b0 b1 b2 b3 : Byte) : Word := b0 ++ b1 ++ b2 ++ b3

/-- `MemRead(off, 2)` (R41). -/
def bigEndian2 (b0 b1 : Byte) : BitVec 16 := b0 ++ b1

/-- The Host's conversion of a header word to its four bytes in transmission order (R40). -/
def wireOfWord (w : Word) : Byte × Byte × Byte × Byte :=
  (w.extractLsb' 24 8, w.extractLsb' 16 8, w.extractLsb' 8 8, w.extractLsb' 0 8)

/-- `buf[off]` (R12): the byte at an offset below `n`; none where no byte is held. -/
def readByte (b : FrameBuf) (off : Nat) : Option Byte :=
  if off < b.len.toNat then b.bytes[off]? else none

/-- `MemRead(off, 2)` of the buffer (R12, R41). -/
def memRead2 (b : FrameBuf) (off : Nat) : Option (BitVec 16) :=
  match readByte b off, readByte b (off + 1) with
  | some b0, some b1 => some (bigEndian2 b0 b1)
  | _, _ => none

/-- `MemRead(off, 4)` of the buffer (R12, R41). -/
def memRead4 (b : FrameBuf) (off : Nat) : Option Word :=
  match readByte b off, readByte b (off + 1), readByte b (off + 2), readByte b (off + 3) with
  | some b0, some b1, some b2, some b3 => some (bigEndian4 b0 b1 b2 b3)
  | _, _, _, _ => none

/-- `Slice(off, k)` of the buffer (R12): `k` bytes in buffer order. -/
def readSlice (b : FrameBuf) (off k : Nat) : Option (List Byte) :=
  if off + k ≤ b.len.toNat ∧ off + k ≤ b.bytes.length then some ((b.bytes.drop off).take k) else none

/-- `DlcOf` (41_can_gateway.md R103): the DLC formed from byte 21. -/
def dlcOf (m : DlcFieldMode) (b21 : Byte) : Byte :=
  match m with
  | .lowNibble => (b21.extractLsb' 0 4).setWidth 8
  | .fullByte => b21

/-- `DlcLen(d)` (R102): none is `Err(InvalidDlc)`. -/
def dlcLookup (table : Vector (BitVec 7) 16) (d : Byte) : Option (BitVec 7) := table[d.toNat]?

end Sys2Proof.Machine
end

