-- ==== Sys2Proof/Machine/Flags.lean ====
section
/-! DEFINITION. The status code (60_exceptions.md R130) and the Booleans that CAN.DECODE computes from the status flags
(41_can_gateway.md R104) and from the CAN-ID word (R105). -/

namespace Sys2Proof.Machine

/-- The 2-bit value of `out.status` (R130). -/
def Status.code : Status → BitVec 2
  | .ok => 0
  | .truncated => 1
  | .unknownFrameType => 2
  | .invalidDlc => 3

/-- `error_state` (R104). -/
def errorStateOf (F : BitVec 16) : Bool := (F &&& 0x0040) != 0

/-- `bit_rate_switch` (R104). -/
def bitRateSwitchOf (F : BitVec 16) : Bool := (F &&& 0x0020) != 0

/-- `extended_data_length` (R104). -/
def extendedDataLengthOf (F : BitVec 16) : Bool := (F &&& 0x0010) != 0

/-- `is_extended_id` (R105): bit 31. -/
def isExtendedIdOf (W : Word) : Bool := (W &&& 0x80000000) != 0

/-- `is_remote_request` (R105): bit 30. -/
def isRemoteRequestOf (W : Word) : Bool := (W &&& 0x40000000) != 0

/-- `can_id` (R105, R113): bits 29 to 0. -/
def canIdOf (W : Word) : BitVec 30 := W.extractLsb' 0 30

end Sys2Proof.Machine
end

