-- ==== Sys2Proof/Machine/Ops.lean ====
section
/-! DEFINITION. The shared operations: a response with its unspecified ports, answering OK, answering with an error (the
block's only kind of exception, 60_exceptions.md R137, R138), HostIssue, reset, and what the Host reads of a response. -/

namespace Sys2Proof.Machine

/-- One free bit, as a Boolean port. -/
def freeBool (p : OutPort) (draw : Nat) : Bool := (Config.freeBits 1 p draw).getLsbD 0

/-- The response number `draw` with every result port but the status unspecified (10_state.md R26; log 5). -/
def undriven (op : Op) (st : Status) (draw : Nat) : Response :=
  { op := op, status := st,
    priority := Config.freeBits 2 .priority draw, source := Config.freeBits 5 .source draw,
    destination := Config.freeBits 5 .destination draw, destPort := Config.freeBits 6 .destPort draw,
    sourcePort := Config.freeBits 6 .sourcePort draw, reserved := Config.freeBits 4 .reserved draw,
    flags := Config.freeBits 4 .flags draw, word := Config.freeBits 32 .word draw,
    frameType := Config.freeBits 8 .frameType draw, errorState := freeBool .errorState draw,
    bitRateSwitch := freeBool .bitRateSwitch draw, extendedDataLength := freeBool .extendedDataLength draw,
    isExtendedId := freeBool .isExtendedId draw, isRemoteRequest := freeBool .isRemoteRequest draw,
    canId := Config.freeBits 30 .canId draw, dlc := Config.freeBits 8 .dlc draw, len := Config.freeBits 7 .len draw,
    data := Vector.ofFn fun i => Config.freeBits 8 (.data i) draw }

/-- `out.data[0..63]` (R25): the bytes of `l`, and free values at the entries past them. -/
def dataPort (l : List Byte) (draw : Nat) : Vector Byte 64 :=
  Vector.ofFn fun i => match l[i.val]? with
    | some b => b
    | none => Config.freeBits 8 (.data i) draw

/-- BlockRespond (R32): `resp <- some r` and `pending <- none`. The counter of free draws moves on (log 5). -/
def State.respond (s : State) (r : Response) : State :=
  { s with pending := none, resp := some r, draws := s.draws + 1 }

/-- `return` (00_scope.md R12): the operation ends with its response. -/
def finish (r : Response) (s : State) : StepOutcome := .next (s.respond r)

/-- `raise E` (R12, R137, R138): an error is a status code. No result port is defined, no state is saved, nothing is
entered, and the block is ready for the next request as after an OK response. -/
def raiseStatus (op : Op) (e : Status) (s : State) : StepOutcome := .next (s.respond (undriven op e s.draws))

/-- HostIssue(req) (R32): `pending <- some req` and `resp <- none`. -/
def State.accept (s : State) (r : Request) : State :=
  { s with pending := some r, resp := none }

/-- Reset (70_reset_and_hazards.md R150, R152): a pending request is discarded with no response; the table and the strapped
mode stay (R151, R154). -/
def State.resetBlock (s : State) : State :=
  { s with pending := none, resp := none }

/-- The Host's queue after its first action is done. -/
def State.popInput (s : State) : State := { s with inputs := s.inputs.drop 1 }

/-- Reset asserted by the Host. -/
def hostReset (s : State) : StepOutcome := .next s.popInput.resetBlock

/-- The request can be decoded: its buffer is one the operand ports can carry (10_state.md R24; log 8). -/
def carried (r : Request) : Bool :=
  match decode r with
  | .ok _ => true
  | .error _ => false

/-- HostIssue of the first action's request; a request that the ports cannot carry is refused (log 8). -/
def hostIssue (r : Request) (s : State) : StepOutcome :=
  match decode r with
  | .ok _ => .next (s.popInput.accept r)
  | .error e => .refused (.unpresentable e)

/-- The Host's move when nothing is pending (log 2); with no action left nothing happens (log 3). -/
def hostMove (s : State) : StepOutcome :=
  match s.inputs with
  | [] => .next s
  | .issue r :: _ => hostIssue r s
  | .await :: _ => .next s.popInput
  | .reset :: _ => hostReset s

/-- The seven header ports of a response. -/
def Response.header (r : Response) : AddressHeader :=
  { priority := r.priority, source := r.source, destination := r.destination, destPort := r.destPort,
    sourcePort := r.sourcePort, reserved := r.reserved, flags := r.flags }

/-- The CanFrame of a response (41_can_gateway.md R100): `data` is the first `out.len` entries of the port (R25, D21). -/
def Response.frame (r : Response) : CanFrame :=
  { frameType := r.frameType, errorState := r.errorState, bitRateSwitch := r.bitRateSwitch,
    extendedDataLength := r.extendedDataLength, isExtendedId := r.isExtendedId, isRemoteRequest := r.isRemoteRequest,
    canId := r.canId, dlc := r.dlc, data := r.data.toList.take r.len.toNat }

/-- What the Host may read of a response: the specified ports alone (R26, R137). -/
def Response.answer (r : Response) : Answer :=
  match r.status with
  | .ok =>
    match r.op with
    | .hdrDecode => .header r.header
    | .hdrEncode => .word r.word
    | .canDecode => .frame r.frame
    | .dlcLen => .len r.len
  | .truncated => .error .truncated
  | .unknownFrameType => .error .unknownFrameType
  | .invalidDlc => .error .invalidDlc

/-- The answer the Host can read in a state, if a response is there (R32). -/
def State.answer (s : State) : Option Answer := s.resp.map Response.answer

end Sys2Proof.Machine
end

