-- ==== Sys2Proof/Machine/Gateway.lean ====
section
/-! DEFINITION. The gateway frame decoder: CAN.DECODE (41_can_gateway.md R106), the four frame types (R101), DLC.LEN
(R102). -/

namespace Sys2Proof.Machine

/-- Step 8 of R106: the CanFrame on the result ports. -/
def frameResponse (tag : Byte) (F : BitVec 16) (W : Word) (d : Byte) (len : BitVec 7) (data : List Byte) (draw : Nat) :
    Response :=
  { undriven .canDecode .ok draw with
    frameType := tag, errorState := errorStateOf F, bitRateSwitch := bitRateSwitchOf F,
    extendedDataLength := extendedDataLengthOf F, isExtendedId := isExtendedIdOf W,
    isRemoteRequest := isRemoteRequestOf W, canId := canIdOf W, dlc := d, len := len, data := dataPort data draw }

/-- Steps 6 to 8 of R106, from the flags, the ID word and byte 21. -/
def decodeData (tag : Byte) (b : FrameBuf) (F : BitVec 16) (W : Word) (b21 : Byte) (s : State) : StepOutcome :=
  let d := dlcOf s.cfg b21
  match dlcLookup s.dlcTable d with
  | none => raiseStatus .canDecode .invalidDlc s
  | some len =>
    if b.len.toNat < Config.frameHdrBytes + len.toNat then raiseStatus .canDecode .truncated s
    else
      match readSlice b Config.frameHdrBytes len.toNat with
      | some data => finish (frameResponse tag F W d len data s.draws) s
      | none => .fault .bufferRead

/-- Steps 3 to 8 of R106, the same for every recognized tag (R101). -/
def decodeTagged (tag : Byte) (b : FrameBuf) (s : State) : StepOutcome :=
  if b.len.toNat < Config.frameHdrBytes then raiseStatus .canDecode .truncated s
  else
    match memRead2 b 22, memRead4 b 24, readByte b 21 with
    | some F, some W, some b21 => decodeData tag b F W b21 s
    | _, _, _ => .fault .bufferRead

/-- CAN.DECODE (R106). -/
def execCanDecode (b : FrameBuf) (s : State) : StepOutcome :=
  if b.len.toNat < 4 then raiseStatus .canDecode .truncated s
  else
    match readByte b 3 with
    | none => .fault .bufferRead
    | some tag =>
      if !recognized tag then raiseStatus .canDecode .unknownFrameType s
      else decodeTagged tag b s

/-- DLC.LEN (R102). -/
def execDlcLen (d : Byte) (s : State) : StepOutcome :=
  match dlcLookup s.dlcTable d with
  | none => raiseStatus .dlcLen .invalidDlc s
  | some len => finish { undriven .dlcLen .ok s.draws with len := len } s

/-- Step 1 of R106 on a frame with a known tag: fewer than 4 bytes are truncated; steps 2 (passed) to 8 otherwise. -/
def decodeFrame (tag : Byte) (f : GwFrame) (s : State) : StepOutcome :=
  if f.len.toNat < 4 then raiseStatus .canDecode .truncated s else decodeTagged tag (f.buf tag) s

/-- GW.CAN20: a CAN.DECODE of a frame tagged 0x80 (R101, R106). -/
def execGwCan20 (f : GwFrame) (s : State) : StepOutcome := decodeFrame tagCan20 f s

/-- GW.CAN20_CRC: tag 0x81; no CRC is checked (R114). -/
def execGwCan20Crc (f : GwFrame) (s : State) : StepOutcome := decodeFrame tagCan20Crc f s

/-- GW.CANFD: tag 0x90. -/
def execGwCanfd (f : GwFrame) (s : State) : StepOutcome := decodeFrame tagCanfd f s

/-- GW.CANFD_CRC: tag 0x91; no CRC is checked (R114). -/
def execGwCanfdCrc (f : GwFrame) (s : State) : StepOutcome := decodeFrame tagCanfdCrc f s

end Sys2Proof.Machine
end

