-- ==== Sys2Proof/Machine/Header.lean ====
section
/-! DEFINITION. The header codec: HDR.DECODE (40_header_codec.md R82) and HDR.ENCODE (R83). -/

namespace Sys2Proof.Machine

/-- HDR.DECODE (R82). -/
def execHdrDecode (w : Word) (s : State) : StepOutcome :=
  let h := headerOfWord w
  finish { undriven .hdrDecode .ok s.draws with
    priority := h.priority, source := h.source, destination := h.destination, destPort := h.destPort,
    sourcePort := h.sourcePort, reserved := h.reserved, flags := h.flags } s

/-- HDR.ENCODE (R83). -/
def execHdrEncode (priority source destination destPort sourcePort reserved flags : Word) (s : State) : StepOutcome :=
  finish { undriven .hdrEncode .ok s.draws with
    word := wordOfFields priority source destination destPort sourcePort reserved flags } s

end Sys2Proof.Machine
end

