-- ==== Sys2Proof/Machine/Dispatch.lean ====
section
/-! DEFINITION. Exec of 10_state.md R32: one arm for each instruction. -/

namespace Sys2Proof.Machine

def exec (i : Instr) (s : State) : Host.Outcome State Fault Refusal :=
  match i with
  | .hdrDecode w => Sys2Proof.Machine.execHdrDecode w s
  | .hdrEncode p src dst dp sp rs fl => Sys2Proof.Machine.execHdrEncode p src dst dp sp rs fl s
  | .canDecode b => Sys2Proof.Machine.execCanDecode b s
  | .dlcLen d => Sys2Proof.Machine.execDlcLen d s
  | .gwCan20 f => Sys2Proof.Machine.execGwCan20 f s
  | .gwCan20Crc f => Sys2Proof.Machine.execGwCan20Crc f s
  | .gwCanfd f => Sys2Proof.Machine.execGwCanfd f s
  | .gwCanfdCrc f => Sys2Proof.Machine.execGwCanfdCrc f s

end Sys2Proof.Machine
end

