-- ==== Sys2Proof/Machine/Transition.lean ====
section
/-! DEFINITION. The transitions of 10_state.md R32 put together: BlockRespond, and which transition a state takes, in the
order the Host's queue gives (log 2). -/

namespace Sys2Proof.Machine

/-- BlockRespond (R32): the pending request is decoded and executed. -/
def blockRespond (r : Request) (s : State) : StepOutcome :=
  match decode r with
  | .ok i => exec i s
  | .error e => .refused (.unpresentable e)

/-- The transition of a state: reset when the Host asserts it (R152); else BlockRespond when a request is pending; else
the Host's next action, HostIssue being enabled only now (R156). -/
def transition (s : State) : StepOutcome :=
  match s.inputs with
  | .reset :: _ => hostReset s
  | _ =>
    match s.pending with
    | some r => blockRespond r s
    | none => hostMove s

/-- The action is a reset. -/
def isReset (a : HostAction) : Bool :=
  match a with
  | .reset => true
  | .await => false
  | .issue _ => false

/-- A request accepted and pending, with no reset asserted before its response (log 9). -/
def present (r : Request) (s : State) : State :=
  { s.accept r with inputs := s.inputs.dropWhile isReset }

end Sys2Proof.Machine
end

