-- ==== Sys2Proof/Machine/Step.lean ====
section
/-! DEFINITION. One step of the machine, and the placing of a table word where the next step runs it. -/

namespace Sys2Proof.Machine

/-- One step: one transition of 10_state.md R32. -/
def step (s : State) : Host.Outcome State Fault Refusal := transition s

/-- The state with a table word's request pending, so that the next step runs it (log 9). -/
def State.withFetchWord (s : State) (nbits w : Nat) : State :=
  match tableRequest nbits w with
  | some r => present r s
  | none => s

end Sys2Proof.Machine
end

