-- ==== Sys2Proof/Safety.lean ====
section
/-! DEFINITION. What the claims call a legal state and a safe run. -/

namespace Sys2Proof.Machine

/-- What the spec promises of every response of a block in mode `m`. A header operation is OK (60_exceptions.md R135). A
DLC.LEN is OK with an entry of the table or INVALID_DLC (R102). An OK CAN.DECODE has a recognized tag (R101) and the table's
length of a DLC of 0 to 15 (41_can_gateway.md R100, R106), and in LOW_NIBBLE mode it never answers INVALID_DLC (R103). -/
def Response.Legal (m : DlcFieldMode) (r : Response) : Prop :=
  match r.op with
  | .hdrDecode => r.status = .ok
  | .hdrEncode => r.status = .ok
  | .dlcLen => (r.status = .ok ∧ r.len ∈ dlcTable.toList) ∨ r.status = .invalidDlc
  | .canDecode =>
    (r.status = .ok → recognized r.frameType = true ∧ dlcTable[r.dlc.toNat]? = some r.len) ∧
    (m = .lowNibble → r.status ≠ .invalidDlc)

/-- The legal states. -/
structure State.Inv (s : State) : Prop where
  /-- The DLC table holds the values of R22 (R151: it is never rewritten). -/
  rom : s.dlcTable = Machine.dlcTable
  /-- A request and a response are never held together (R32). -/
  alone : s.pending = none ∨ s.resp = none
  /-- A pending request came through the operand ports (R24). -/
  pending : ∀ r, s.pending = some r → carried r = true
  /-- The response is one the spec allows. -/
  resp : ∀ r, s.resp = some r → r.Legal s.cfg

/-- The Host's duty: every request it is to issue can be carried by the operand ports (R24, U16). -/
def State.HostKeepsPorts (s : State) : Prop :=
  ∀ r, .issue r ∈ s.inputs → carried r = true

/-- `k` steps go through with no fault and no refusal. -/
def SafeFor (k : Nat) (s : State) : Prop := ∃ t, Host.Core.run core k s = .next t

end Sys2Proof.Machine
end

