-- ==== Sys2Proof/Certificates/Slice0/Obligations.lean ====
section
/-! DEFINITION. The statements for the provers, and the words they use: the frame's bytes and lengths as natural numbers,
said from the spec's own tables and not through the model's operations. -/

namespace Sys2Proof.Claims

open Sys2Proof.Machine

/-- The rest of the state after a response: only `pending`, `resp` and the counter of free draws may change (10_state.md
R21, R32; 60_exceptions.md R138). -/
def LeavesRest (s t : State) : Prop :=
  t.pending = none ∧ t.cfg = s.cfg ∧ t.dlcTable = s.dlcTable ∧ t.inputs = s.inputs ∧ t.draws = s.draws + 1

/-- `exec` answers a next state whose response is as `P` says, and the rest of the state is left as it was. -/
def Responds (i : Instr) (s : State) (P : Response → Prop) : Prop :=
  ∃ t r, exec i s = .next t ∧ t.resp = some r ∧ P r ∧ LeavesRest s t

/-- The lengths of 10_state.md R22. -/
def lengths : List Nat := [0, 1, 2, 3, 4, 5, 6, 7, 8, 12, 16, 20, 24, 32, 48, 64]

/-- The byte at an offset of the buffer, as a number. -/
def byteAt (b : FrameBuf) (i : Nat) : Nat := (b.bytes.getD i 0).toNat

/-- The DLC that byte 21 gives (41_can_gateway.md R103). -/
def dlcAt (m : DlcFieldMode) (b : FrameBuf) : Nat :=
  match m with
  | .lowNibble => byteAt b 21 % 16
  | .fullByte => byteAt b 21

/-- LEN (00_scope.md R15): the table's length of the buffer's DLC. -/
def lenAt (m : DlcFieldMode) (b : FrameBuf) : Nat := lengths.getD (dlcAt m b) 0

/-- Byte 3 is one of the four tags of R65. -/
def Tagged (b : FrameBuf) : Prop := byteAt b 3 = 0x80 ∨ byteAt b 3 = 0x81 ∨ byteAt b 3 = 0x90 ∨ byteAt b 3 = 0x91

/-- The status code the first failing check of R106 and 60_exceptions.md R136 gives for a buffer with a recognized tag. -/
def TaggedFails (m : DlcFieldMode) (b : FrameBuf) (code : BitVec 2) : Prop :=
  (b.len.toNat < 28 ∧ code = 1) ∨
  (28 ≤ b.len.toNat ∧ 15 < dlcAt m b ∧ code = 3) ∨
  (28 ≤ b.len.toNat ∧ dlcAt m b ≤ 15 ∧ b.len.toNat < 28 + lenAt m b ∧ code = 1)

/-- No check of R106 from step 3 on fails. -/
def LongEnough (m : DlcFieldMode) (b : FrameBuf) : Prop := dlcAt m b ≤ 15 ∧ 28 + lenAt m b ≤ b.len.toNat

/-- The response carries the frame of the buffer: every port of R106 step 8, as R100, R103, R104 and R105 compute it from
the bytes. -/
def CarriesFrame (m : DlcFieldMode) (b : FrameBuf) (r : Response) : Prop :=
  r.op = .canDecode ∧ r.status.code = 0 ∧
  r.frameType.toNat = byteAt b 3 ∧
  r.errorState = decide (byteAt b 23 / 64 % 2 = 1) ∧
  r.bitRateSwitch = decide (byteAt b 23 / 32 % 2 = 1) ∧
  r.extendedDataLength = decide (byteAt b 23 / 16 % 2 = 1) ∧
  r.isExtendedId = decide (byteAt b 24 / 128 = 1) ∧
  r.isRemoteRequest = decide (byteAt b 24 / 64 % 2 = 1) ∧
  r.canId.toNat = byteAt b 24 % 64 * 2 ^ 24 + byteAt b 25 * 2 ^ 16 + byteAt b 26 * 2 ^ 8 + byteAt b 27 ∧
  r.dlc.toNat = dlcAt m b ∧ r.len.toNat = lenAt m b ∧
  ∀ i (h : i < 64), i < lenAt m b → (r.data[i]).toNat = byteAt b (28 + i)

/-- The response is this error of CAN.DECODE. -/
def CarriesError (code : BitVec 2) (r : Response) : Prop :=
  r.op = .canDecode ∧ r.status.code = code ∧ code ≠ 0

/-- The four gateway rows of a frame, each with the buffer of its tag (R65). -/
def gwRows (f : GwFrame) : List (Instr × FrameBuf) :=
  [(.gwCan20 f, f.buf 0x80), (.gwCan20Crc f, f.buf 0x81), (.gwCanfd f, f.buf 0x90), (.gwCanfdCrc f, f.buf 0x91)]

/-- `Exec(cfg, req)` (10_state.md R32) as the Host reads it: what a fresh block strapped to `m` answers to the request. -/
def answerTo (m : DlcFieldMode) (r : Request) : Option Answer :=
  match decode r with
  | .ok i =>
    match exec i (State.resetFor m) with
    | .next t => t.answer
    | .fault _ => none
    | .refused _ => none
  | .error _ => none

/-- The two requests have the same op and agree on the operand ports that the op reads (30_encoding.md R60). -/
def SameOperands (r q : Request) : Prop :=
  r.op = q.op ∧
  (r.op = 0b00 → r.hdrWord = q.hdrWord) ∧
  (r.op = 0b01 → r.priority = q.priority ∧ r.source = q.source ∧ r.destination = q.destination ∧
    r.destPort = q.destPort ∧ r.sourcePort = q.sourcePort ∧ r.reserved = q.reserved ∧ r.flags = q.flags) ∧
  (r.op = 0b10 → r.bufLen = q.bufLen ∧ r.buf = q.buf) ∧
  (r.op = 0b11 → r.dlc = q.dlc)

/-- Two instructions answer in this state, with the same specified ports and the same rest of the state. -/
def SameAnswer (i j : Instr) (s : State) : Prop :=
  ∃ t u, exec i s = .next t ∧ exec j s = .next u ∧ t.answer = u.answer ∧ t.answer ≠ none ∧ LeavesRest s t ∧ LeavesRest s u

/-- The Host's next action is not a reset. -/
def NoResetNext (l : List HostAction) : Prop := l.head? ≠ some .reset

end Sys2Proof.Claims

open Sys2Proof Sys2Proof.Machine Sys2Proof.Claims

/-- 70_reset_and_hazards.md R150, 10_state.md R33, R22. The empty queue and the counter 0 are the model's choice (log 2,
log 5) and are not stated. -/
def Obligations.ResetHoldsNoRequestAndNoResponse : Prop :=
  (∀ m, (State.resetFor m).pending = none ∧ (State.resetFor m).resp = none ∧ (State.resetFor m).cfg = m ∧
    (State.resetFor m).dlcTable.toList.map BitVec.toNat = lengths) ∧
  State.reset = State.resetFor .lowNibble

/-- The reset states meet the invariant. -/
def Obligations.ResetIsLegal : Prop := ∀ m, (State.resetFor m).Inv

/-- 30_encoding.md R60, R65: requests written out port by port. -/
def Obligations.SampleRequestsDecode : Prop :=
  decode { blankRequest 0b00 with hdrWord := 0x82A29400 } = .ok (.hdrDecode 0x82A29400) ∧
  decode { blankRequest 0b01 with
    priority := 5, source := 33, destination := 64, destPort := 65, sourcePort := 0x1FF, reserved := 0x13,
    flags := 0x1F } = .ok (.hdrEncode 5 33 64 65 0x1FF 0x13 0x1F) ∧
  decode { blankRequest 0b10 with bufLen := 4, buf := [0, 0, 0, 0x7F] } = .ok (.canDecode ⟨4, [0, 0, 0, 0x7F]⟩) ∧
  decode { blankRequest 0b10 with bufLen := 5, buf := [1, 2, 3, 0x91, 4] } = .ok (.gwCanfdCrc ⟨5, 1, 2, 3, [4]⟩) ∧
  decode { blankRequest 0b11 with dlc := 16 } = .ok (.dlcLen 16)

/-- 10_state.md R32: BlockRespond runs the instruction its request decodes to; and so does a table word placed by
`withFetchWord` (log 9). -/
def Obligations.StepRunsTheDecodedInstruction : Prop :=
  (∀ s r i, s.pending = some r → NoResetNext s.inputs → decode r = .ok i → step s = exec i s) ∧
  (∀ (s : State) nbits w i, decodeTableWord nbits w = some i →
    step (s.withFetchWord nbits w) = exec i (s.withFetchWord nbits w))

/-- 70_reset_and_hazards.md R152, R150: reset in any state, whatever is pending; the rest of the Host's queue stays, a
choice of the model (log 2). -/
def Obligations.ResetDiscardsThePendingRequest : Prop :=
  ∀ s rest, s.inputs = .reset :: rest →
    ∃ t, step s = .next t ∧ t.pending = none ∧ t.resp = none ∧ t.cfg = s.cfg ∧ t.dlcTable = s.dlcTable ∧ t.inputs = rest

/-- 10_state.md R32: HostIssue. -/
def Obligations.HostIssueTakesTheSnapshot : Prop :=
  ∀ s r rest, s.pending = none → s.inputs = .issue r :: rest → (r.op = 0b10 → presentable r.frameBuf = true) →
    ∃ t, step s = .next t ∧ t.pending = some r ∧ t.resp = none ∧ t.cfg = s.cfg ∧ t.dlcTable = s.dlcTable ∧
      t.inputs = rest

/-- 93_implementation_defined.md U16: a buffer the ports cannot carry is refused, at HostIssue; the model's choice of the
snapshot's bytes is log 8. -/
def Obligations.UnpresentableBufferIsRefused : Prop :=
  ∀ s r rest, s.pending = none → s.inputs = .issue r :: rest → r.op = 0b10 → presentable r.frameBuf = false →
    ∃ e, step s = .refused (.unpresentable e)

/-- The model's choice (log 2, log 3), not the spec's: with nothing pending, waiting changes nothing but the queue, and with
an empty queue nothing changes. -/
def Obligations.IdleStepsChangeNothing : Prop :=
  (∀ s, s.pending = none → s.inputs = [] → step s = .next s) ∧
  (∀ s rest, s.pending = none → s.inputs = .await :: rest → step s = .next { s with inputs := rest })

/-- 40_header_codec.md R82. -/
def Obligations.HdrDecodeGivesTheSevenFields : Prop :=
  (∀ r, r.op = 0b00 → decode r = .ok (.hdrDecode r.hdrWord)) ∧
  ∀ (w : Word) s, Responds (.hdrDecode w) s fun r =>
    r.op = .hdrDecode ∧ r.status.code = 0 ∧
    r.priority.toNat = w.toNat / 2 ^ 30 ∧ r.source.toNat = w.toNat / 2 ^ 25 % 32 ∧
    r.destination.toNat = w.toNat / 2 ^ 20 % 32 ∧ r.destPort.toNat = w.toNat / 2 ^ 14 % 64 ∧
    r.sourcePort.toNat = w.toNat / 2 ^ 8 % 64 ∧ r.reserved.toNat = w.toNat / 2 ^ 4 % 16 ∧ r.flags.toNat = w.toNat % 16

/-- 40_header_codec.md R83: the packed word is the sum of the masked operands at their places, since the fields are
disjoint. -/
def Obligations.HdrEncodePacksTheMaskedOperands : Prop :=
  (∀ r, r.op = 0b01 → decode r =
    .ok (.hdrEncode r.priority r.source r.destination r.destPort r.sourcePort r.reserved r.flags)) ∧
  ∀ (p src dst dp sp rs fl : Word) s, Responds (.hdrEncode p src dst dp sp rs fl) s fun r =>
    r.op = .hdrEncode ∧ r.status.code = 0 ∧
    r.word.toNat = p.toNat % 4 * 2 ^ 30 + src.toNat % 32 * 2 ^ 25 + dst.toNat % 32 * 2 ^ 20 + dp.toNat % 64 * 2 ^ 14 +
      sp.toNat % 64 * 2 ^ 8 + rs.toNat % 16 * 2 ^ 4 + fl.toNat % 16

/-- 40_header_codec.md R84. -/
def Obligations.EncodeOfDecodeIsTheWord : Prop :=
  ∀ (w : Word) s, ∃ t r u q, exec (.hdrDecode w) s = .next t ∧ t.resp = some r ∧
    exec (.hdrEncode (r.priority.setWidth 32) (r.source.setWidth 32) (r.destination.setWidth 32) (r.destPort.setWidth 32)
      (r.sourcePort.setWidth 32) (r.reserved.setWidth 32) (r.flags.setWidth 32)) t = .next u ∧
    u.resp = some q ∧ q.status = .ok ∧ q.word = w

/-- 40_header_codec.md R85. -/
def Obligations.DecodeOfEncodeIsTheMaskedOperands : Prop :=
  ∀ (p src dst dp sp rs fl : Word) s, ∃ t r u q, exec (.hdrEncode p src dst dp sp rs fl) s = .next t ∧ t.resp = some r ∧
    exec (.hdrDecode r.word) t = .next u ∧ u.resp = some q ∧ q.status = .ok ∧
    (q.priority.toNat = p.toNat % 4 ∧ q.source.toNat = src.toNat % 32 ∧ q.destination.toNat = dst.toNat % 32 ∧
      q.destPort.toNat = dp.toNat % 64 ∧ q.sourcePort.toNat = sp.toNat % 64 ∧ q.reserved.toNat = rs.toNat % 16 ∧
      q.flags.toNat = fl.toNat % 16) ∧
    (p.toNat < 4 → src.toNat < 32 → dst.toNat < 32 → dp.toNat < 64 → sp.toNat < 64 → rs.toNat < 16 → fl.toNat < 16 →
      q.priority.setWidth 32 = p ∧ q.source.setWidth 32 = src ∧ q.destination.setWidth 32 = dst ∧
      q.destPort.setWidth 32 = dp ∧ q.sourcePort.setWidth 32 = sp ∧ q.reserved.setWidth 32 = rs ∧
      q.flags.setWidth 32 = fl)

/-- 20_memory.md R40: the header word on the wire, first byte first. -/
def Obligations.HeaderTravelsBigEndian : Prop :=
  (∀ b0 b1 b2 b3 : Byte,
    (bigEndian4 b0 b1 b2 b3).toNat = b0.toNat * 2 ^ 24 + b1.toNat * 2 ^ 16 + b2.toNat * 2 ^ 8 + b3.toNat ∧
    wireOfWord (bigEndian4 b0 b1 b2 b3) = (b0, b1, b2, b3)) ∧
  ∀ (b0 b1 b2 b3 : Byte) s, Responds (.hdrDecode (bigEndian4 b0 b1 b2 b3)) s fun r =>
    r.priority.toNat = b0.toNat / 64 ∧ r.source.toNat = b0.toNat / 2 % 32 ∧
    r.destination.toNat = b0.toNat % 2 * 16 + b1.toNat / 16 ∧ r.reserved.toNat = b3.toNat / 16 ∧
    r.flags.toNat = b3.toNat % 16

/-- 41_can_gateway.md R102, with the values of 10_state.md R22. -/
def Obligations.DlcLenReadsTheTable : Prop :=
  (∀ r, r.op = 0b11 → decode r = .ok (.dlcLen r.dlc)) ∧
  ∀ (d : Byte) s, s.dlcTable = dlcTable →
    (d.toNat ≤ 15 → Responds (.dlcLen d) s fun r =>
      r.op = .dlcLen ∧ r.status.code = 0 ∧ r.len.toNat = lengths.getD d.toNat 0) ∧
    (15 < d.toNat → Responds (.dlcLen d) s fun r => r.op = .dlcLen ∧ r.status.code = 3)

/-- 41_can_gateway.md R106: where no check fails, CAN.DECODE answers OK with the frame. -/
def Obligations.CanDecodeAnswersTheFrame : Prop :=
  ∀ b s, presentable b = true → s.dlcTable = dlcTable → Tagged b → LongEnough s.cfg b →
    Responds (.canDecode b) s (CarriesFrame s.cfg b)

/-- 41_can_gateway.md R106, 60_exceptions.md R131, R132, R133, R136: where a check fails, the first one gives the status. -/
def Obligations.CanDecodeFirstFailingCheckWins : Prop :=
  ∀ b s, presentable b = true → s.dlcTable = dlcTable →
    (b.len.toNat < 4 → Responds (.canDecode b) s (CarriesError 1)) ∧
    (4 ≤ b.len.toNat → ¬Tagged b → Responds (.canDecode b) s (CarriesError 2)) ∧
    (∀ code, 4 ≤ b.len.toNat → Tagged b → TaggedFails s.cfg b code → Responds (.canDecode b) s (CarriesError code))

/-- 41_can_gateway.md R106 from end to end: what BlockRespond answers to a request with `in.op = 0b10`. -/
def Obligations.CanDecodeRequestIsAnsweredStepByStep : Prop :=
  ∀ s r, s.pending = some r → NoResetNext s.inputs → r.op = 0b10 → presentable r.frameBuf = true →
    s.dlcTable = dlcTable →
    ∃ t q, step s = .next t ∧ t.resp = some q ∧ LeavesRest s t ∧
      (r.bufLen.toNat < 4 → CarriesError 1 q) ∧
      (4 ≤ r.bufLen.toNat → ¬Tagged r.frameBuf → CarriesError 2 q) ∧
      (4 ≤ r.bufLen.toNat → Tagged r.frameBuf →
        (∀ code, TaggedFails s.cfg r.frameBuf code → CarriesError code q) ∧
        (LongEnough s.cfg r.frameBuf → CarriesFrame s.cfg r.frameBuf q))

/-- 60_exceptions.md R133: where INVALID_DLC is raised, and only there. -/
def Obligations.InvalidDlcIsRaisedOnlyAboveFifteen : Prop :=
  (∀ d s t r, exec (.dlcLen d) s = .next t → t.resp = some r → (r.status = .invalidDlc ↔ 15 < d.toNat)) ∧
  ∀ b s t r, presentable b = true → s.dlcTable = dlcTable → exec (.canDecode b) s = .next t → t.resp = some r →
    (r.status = .invalidDlc ↔ Tagged b ∧ 28 ≤ b.len.toNat ∧ 15 < dlcAt s.cfg b) ∧
    (r.status = .invalidDlc → s.cfg = .fullByte)

/-- 41_can_gateway.md R106, R101, R111, R114: each gateway row answers OK with the frame of its tag. That a row is
CAN.DECODE of the frame with its tag is the model's reading (log 1, DEDUCED). -/
def Obligations.GatewayRowsAnswerTheFrame : Prop :=
  ∀ f s row, row ∈ gwRows f → presentable row.2 = true → s.dlcTable = dlcTable → LongEnough s.cfg row.2 →
    Responds row.1 s (CarriesFrame s.cfg row.2)

/-- 41_can_gateway.md R106, 60_exceptions.md R131, R133, R136, for the gateway rows. That a row is
CAN.DECODE of the frame with its tag is the model's reading (log 1, DEDUCED). -/
def Obligations.GatewayRowsFailInOrder : Prop :=
  ∀ f s row code, row ∈ gwRows f → presentable row.2 = true → s.dlcTable = dlcTable → TaggedFails s.cfg row.2 code →
    Responds row.1 s (CarriesError code)

/-- 41_can_gateway.md R101: a gateway row is CAN.DECODE of the frame with its tag (log 1). -/
def Obligations.GatewayRowsAreCanDecode : Prop :=
  ∀ f s row, row ∈ gwRows f → exec row.1 s = exec (.canDecode row.2) s

/-- 41_can_gateway.md R101, R111, R114: two gateway rows on one frame give the Host the same error, or the same CanFrame but
for `frame_type`, which is each row's tag. That a row is
CAN.DECODE of the frame with its tag is the model's reading (log 1, DEDUCED). -/
def Obligations.TagChangesFrameTypeAlone : Prop :=
  ∀ f s a b t, a ∈ gwRows f → b ∈ gwRows f → exec a.1 s = .next t →
    ∃ u, exec b.1 s = .next u ∧
      ((∃ e, t.answer = some (.error e) ∧ u.answer = some (.error e)) ∨
       (∃ c d, t.answer = some (.frame c) ∧ u.answer = some (.frame d) ∧ c.frameType.toNat = byteAt a.2 3 ∧
         d.frameType.toNat = byteAt b.2 3 ∧ d = { c with frameType := d.frameType }))

/-- 30_encoding.md R67, 41_can_gateway.md R110, R104: the bytes and bits that no result depends on. -/
def Obligations.UninterpretedBytesChangeNothing : Prop :=
  ∀ b c s, presentable b = true → presentable c = true → s.dlcTable = dlcTable → b.len = c.len →
    byteAt b 3 = byteAt c 3 → dlcAt s.cfg b = dlcAt s.cfg c → byteAt b 23 / 16 % 8 = byteAt c 23 / 16 % 8 →
    (∀ i, 24 ≤ i → i < 28 + lenAt s.cfg b → byteAt b i = byteAt c i) →
    SameAnswer (.canDecode b) (.canDecode c) s

/-- 20_memory.md R46: bytes at offset 28 + LEN and above are ignored, however many there are. -/
def Obligations.TrailingBytesAreIgnored : Prop :=
  ∀ b c s, presentable b = true → presentable c = true → s.dlcTable = dlcTable → dlcAt s.cfg b ≤ 15 →
    b.len.toNat = 28 + lenAt s.cfg b → b.len.toNat ≤ c.len.toNat → (∀ i, i < b.len.toNat → byteAt b i = byteAt c i) →
    SameAnswer (.canDecode b) (.canDecode c) s

/-- 10_state.md R21, 20_memory.md R50: what the Host reads of a response depends on the request and on DLC_FIELD_MODE
alone, whatever was served before. -/
def Obligations.AnswerDependsOnRequestAndModeAlone : Prop :=
  ∀ i s s' t, s.dlcTable = dlcTable → s'.dlcTable = dlcTable → s.cfg = s'.cfg → exec i s = .next t →
    ∃ t', exec i s' = .next t' ∧ t'.answer = t.answer

/-- 10_state.md R21, R32, 60_exceptions.md R138: the frame of every instruction, OK or error. It writes `pending`, `resp`
and the model's counter; the mode, the ROM and the Host's queued buffers stay. -/
def Obligations.EveryInstructionLeavesTheRest : Prop :=
  ∀ i s t, exec i s = .next t → LeavesRest s t ∧ ∃ r, t.resp = some r

/-- 20_memory.md R45, 41_can_gateway.md R109, 30_encoding.md R60, R66: every request the ports can carry decodes to a
well-formed instruction that answers in every state with the spec's table, and no other request is rejected. -/
def Obligations.EveryCarriedRequestAnswers : Prop :=
  (∀ r, (r.op = 0b10 → presentable r.frameBuf = true) ↔ ∃ i, decode r = .ok i) ∧
  (∀ r i s, s.dlcTable = dlcTable → decode r = .ok i → i.wf = true ∧ ∃ t, exec i s = .next t)

/-- 10_state.md R32, 70_reset_and_hazards.md R156: HostIssue is not enabled while a request is pending. The block responds
and the Host's queue waits. -/
def Obligations.NextRequestWaitsForTheResponse : Prop :=
  ∀ s r, s.dlcTable = dlcTable → s.pending = some r → NoResetNext s.inputs → carried r = true →
    ∃ t q, step s = .next t ∧ t.inputs = s.inputs ∧ t.pending = none ∧ t.resp = some q

/-- 10_state.md R22, R23, 70_reset_and_hazards.md R151, R154: no step writes the ROM or the mode. -/
def Obligations.TableAndModeAreNeverWritten : Prop :=
  ∀ s t, step s = .next t → t.dlcTable = s.dlcTable ∧ t.cfg = s.cfg

/-- Every step keeps the legal states legal: 10_state.md R22, R24, R32; 41_can_gateway.md R100 to R103; 60_exceptions.md
R135. -/
def Obligations.EveryStepKeepsTheLegalStates : Prop :=
  ∀ s t, s.Inv → step s = .next t → t.Inv

/-- 60_exceptions.md R140, 70_reset_and_hazards.md R159: with a Host that keeps to the ports, nothing ever stops the block:
no fault and no refusal in any number of steps. -/
def Obligations.LegalRunsNeverStop : Prop :=
  ∀ k s, s.Inv → s.HostKeepsPorts → SafeFor k s

/-- 20_memory.md R50, 10_state.md R32: requests are served in the order issued, and the response to each is
`Exec(cfg, req)` of its own request, whatever requests came before. -/
def Obligations.RequestsAreServedInOrder : Prop :=
  ∀ s rs r rest, s.Inv → s.pending = none → s.inputs = (rs ++ [r]).map .issue ++ rest → NoResetNext rest →
    (∀ q ∈ rs ++ [r], carried q = true) →
    ∃ t, Host.Core.run core (2 * (rs.length + 1)) s = .next t ∧ t.pending = none ∧ t.inputs = rest ∧
      t.answer = answerTo s.cfg r ∧ t.answer ≠ none

/-- 30_encoding.md R60, R65; 10_state.md R24: no bit of any instruction is dropped. -/
def Obligations.DecodeOfEncodeIsTheInstruction : Prop :=
  ∀ i : Instr, i.wf = true → decode (encode i) = .ok i

/-- 30_encoding.md R60, 10_state.md R24: the encoding of what a request decodes to has the request's op and the operands the
op reads. The unread ports are the model's choice (log 10) and are not stated. -/
def Obligations.EncodeOfDecodeKeepsTheOperands : Prop :=
  ∀ r i, decode r = .ok i → SameOperands r (encode i)

/-- 10_state.md R24: only the ports of the selected op are read. -/
def Obligations.OnlyThePortsOfTheOpAreRead : Prop :=
  ∀ r q, SameOperands r q → decode r = decode q
end

