-- ==== Sys2Proof/Laws/Bits.lean ====
section
/-! SUPPORT. The operand forms and the flag computations as arithmetic on natural numbers. -/

namespace Sys2Proof.Machine

/-- A field of the header word is a quotient modulo its size. -/
theorem slice_toNat (lo width : Nat) (w : Word) : (slice lo width w).toNat = w.toNat / 2 ^ lo % 2 ^ width := by
  simp [slice, BitVec.extractLsb'_toNat, Nat.shiftRight_eq_div_pow]

/-- A masked operand in its place, where it fits the word. -/
theorem packField_toNat {lo width : Nat} (h : lo + width ≤ 32) (v : Word) :
    (packField lo width v).toNat = (v.toNat % 2 ^ width) <<< lo := by
  have hm : v.toNat % 2 ^ width < 2 ^ width := Nat.mod_lt _ (by positivity)
  have hw : v.toNat % 2 ^ width < 2 ^ 32 := lt_of_lt_of_le hm (Nat.pow_le_pow_right (by decide) (by omega))
  have hs : (v.toNat % 2 ^ width) <<< lo < 2 ^ 32 := by
    rw [Nat.shiftLeft_eq]
    calc v.toNat % 2 ^ width * 2 ^ lo < 2 ^ width * 2 ^ lo := by gcongr
      _ = 2 ^ (width + lo) := by rw [pow_add]
      _ ≤ 2 ^ 32 := Nat.pow_le_pow_right (by decide) (by omega)
  simp only [packField, BitVec.toNat_shiftLeft, BitVec.toNat_setWidth]
  rw [Nat.mod_eq_of_lt hw, Nat.mod_eq_of_lt hs]

/-- Disjoint bits: the or of a shifted number and a smaller one is their sum. -/
theorem shiftLeft_or_eq_add {x k : Nat} (h : x < 2 ^ k) (a : Nat) : (a <<< k) ||| x = a * 2 ^ k + x := by
  rw [← Nat.shiftLeft_add_eq_or_of_lt h, Nat.shiftLeft_eq]

theorem bigEndian2_toNat (b0 b1 : Byte) : (bigEndian2 b0 b1).toNat = b0.toNat * 2 ^ 8 + b1.toNat := by
  simp only [bigEndian2, BitVec.toNat_append]
  exact shiftLeft_or_eq_add b1.isLt _

theorem bigEndian4_toNat (b0 b1 b2 b3 : Byte) :
    (bigEndian4 b0 b1 b2 b3).toNat =
      b0.toNat * 2 ^ 24 + b1.toNat * 2 ^ 16 + b2.toNat * 2 ^ 8 + b3.toNat := by
  simp only [bigEndian4, BitVec.toNat_append]
  rw [shiftLeft_or_eq_add b3.isLt, shiftLeft_or_eq_add b2.isLt, shiftLeft_or_eq_add b1.isLt]
  omega

/-- Testing one bit by a mask. -/
theorem and_mask_ne_zero {n : Nat} (v m : BitVec n) {k : Nat} (hm : m.toNat = 2 ^ k) :
    ((v &&& m) != 0) = decide (v.toNat / 2 ^ k % 2 = 1) := by
  rw [Bool.eq_iff_iff, bne_iff_ne, decide_eq_true_iff, ne_eq, ← BitVec.toNat_inj, BitVec.toNat_and, hm,
    Nat.and_two_pow, Nat.testBit_eq_decide_div_mod_eq]
  by_cases h : v.toNat / 2 ^ k % 2 = 1 <;> simp [h]

theorem errorStateOf_eq (F : BitVec 16) : errorStateOf F = decide (F.toNat / 2 ^ 6 % 2 = 1) := and_mask_ne_zero _ _ rfl
theorem bitRateSwitchOf_eq (F : BitVec 16) : bitRateSwitchOf F = decide (F.toNat / 2 ^ 5 % 2 = 1) :=
  and_mask_ne_zero _ _ rfl
theorem extendedDataLengthOf_eq (F : BitVec 16) : extendedDataLengthOf F = decide (F.toNat / 2 ^ 4 % 2 = 1) :=
  and_mask_ne_zero _ _ rfl
theorem isExtendedIdOf_eq (W : Word) : isExtendedIdOf W = decide (W.toNat / 2 ^ 31 % 2 = 1) := and_mask_ne_zero _ _ rfl
theorem isRemoteRequestOf_eq (W : Word) : isRemoteRequestOf W = decide (W.toNat / 2 ^ 30 % 2 = 1) :=
  and_mask_ne_zero _ _ rfl
theorem canIdOf_toNat (W : Word) : (canIdOf W).toNat = W.toNat % 2 ^ 30 := by
  simp [canIdOf, BitVec.extractLsb'_toNat]

end Sys2Proof.Machine
end

