-- ==== Sys2Proof/Laws/State.lean ====
section
/-! SUPPORT. One lemma for each field of State under each of its updates. -/

namespace Sys2Proof.Machine

variable (s : State)

@[simp] theorem respond_cfg (r : Response) : (s.respond r).cfg = s.cfg := rfl
@[simp] theorem respond_dlcTable (r : Response) : (s.respond r).dlcTable = s.dlcTable := rfl
@[simp] theorem respond_pending (r : Response) : (s.respond r).pending = none := rfl
@[simp] theorem respond_resp (r : Response) : (s.respond r).resp = some r := rfl
@[simp] theorem respond_inputs (r : Response) : (s.respond r).inputs = s.inputs := rfl
@[simp] theorem respond_draws (r : Response) : (s.respond r).draws = s.draws + 1 := rfl

@[simp] theorem accept_cfg (r : Request) : (s.accept r).cfg = s.cfg := rfl
@[simp] theorem accept_dlcTable (r : Request) : (s.accept r).dlcTable = s.dlcTable := rfl
@[simp] theorem accept_pending (r : Request) : (s.accept r).pending = some r := rfl
@[simp] theorem accept_resp (r : Request) : (s.accept r).resp = none := rfl
@[simp] theorem accept_inputs (r : Request) : (s.accept r).inputs = s.inputs := rfl
@[simp] theorem accept_draws (r : Request) : (s.accept r).draws = s.draws := rfl

@[simp] theorem resetBlock_cfg : (s.resetBlock).cfg = s.cfg := rfl
@[simp] theorem resetBlock_dlcTable : (s.resetBlock).dlcTable = s.dlcTable := rfl
@[simp] theorem resetBlock_pending : (s.resetBlock).pending = none := rfl
@[simp] theorem resetBlock_resp : (s.resetBlock).resp = none := rfl
@[simp] theorem resetBlock_inputs : (s.resetBlock).inputs = s.inputs := rfl
@[simp] theorem resetBlock_draws : (s.resetBlock).draws = s.draws := rfl

@[simp] theorem popInput_cfg : (s.popInput).cfg = s.cfg := rfl
@[simp] theorem popInput_dlcTable : (s.popInput).dlcTable = s.dlcTable := rfl
@[simp] theorem popInput_pending : (s.popInput).pending = s.pending := rfl
@[simp] theorem popInput_resp : (s.popInput).resp = s.resp := rfl
@[simp] theorem popInput_inputs : (s.popInput).inputs = s.inputs.drop 1 := rfl
@[simp] theorem popInput_draws : (s.popInput).draws = s.draws := rfl

@[simp] theorem resetFor_cfg (m : DlcFieldMode) : (State.resetFor m).cfg = m := rfl
@[simp] theorem resetFor_dlcTable (m : DlcFieldMode) : (State.resetFor m).dlcTable = dlcTable := rfl
@[simp] theorem resetFor_pending (m : DlcFieldMode) : (State.resetFor m).pending = none := rfl
@[simp] theorem resetFor_resp (m : DlcFieldMode) : (State.resetFor m).resp = none := rfl
@[simp] theorem resetFor_inputs (m : DlcFieldMode) : (State.resetFor m).inputs = [] := rfl
@[simp] theorem resetFor_draws (m : DlcFieldMode) : (State.resetFor m).draws = 0 := rfl

end Sys2Proof.Machine
end

