-- ==== Sys2Proof/Laws/Ops.lean ====
section
/-! SUPPORT. What each shared operation can do, said once. -/

namespace Sys2Proof.Machine

/-! ### Responses -/

@[simp] theorem undriven_op (op : Op) (e : Status) (k : Nat) : (undriven op e k).op = op := rfl
@[simp] theorem undriven_status (op : Op) (e : Status) (k : Nat) : (undriven op e k).status = e := rfl

theorem finish_eq_next {r : Response} {s t : State} : finish r s = .next t ↔ t = s.respond r := by
  simp [finish, eq_comm]

theorem raiseStatus_eq_next {op : Op} {e : Status} {s t : State} :
    raiseStatus op e s = .next t ↔ t = s.respond (undriven op e s.draws) := by
  simp [raiseStatus, eq_comm]

/-- An error answers the error and nothing else. -/
theorem answer_of_error {r : Response} (h : r.status ≠ .ok) : r.answer = .error r.status := by
  unfold Response.answer
  cases hs : r.status <;> simp_all

/-- The entries of the data port below the length of the data are the data. -/
theorem dataPort_getElem {l : List Byte} {k i : Nat} (hi : i < l.length) (h : i < 64) : (dataPort l k)[i] = l[i] := by
  simp [dataPort, hi]

/-- The first entries of the data port are the data. -/
theorem dataPort_take {l : List Byte} {k : Nat} (h : l.length ≤ 64) : (dataPort l k).toList.take l.length = l := by
  apply List.ext_getElem
  · simp [h]
  · intro i h1 h2
    simp [dataPort, h2]

/-! ### The Host -/

theorem carried_iff {r : Request} : carried r = true ↔ ∃ i, decode r = .ok i := by
  unfold carried
  cases decode r <;> simp

/-- HostIssue of a request the ports carry. -/
theorem hostIssue_of_carried {r : Request} (h : carried r = true) (s : State) :
    hostIssue r s = .next (s.popInput.accept r) := by
  obtain ⟨i, hi⟩ := carried_iff.1 h
  simp [hostIssue, hi]

theorem hostIssue_eq_next {r : Request} {s t : State} :
    hostIssue r s = .next t ↔ carried r = true ∧ t = s.popInput.accept r := by
  unfold hostIssue carried
  cases decode r <;> simp [eq_comm]

/-- Everything the Host can do when nothing is pending. -/
theorem hostMove_eq_next {s t : State} (h : hostMove s = .next t) :
    (s.inputs = [] ∧ t = s) ∨
    (∃ r rest, s.inputs = .issue r :: rest ∧ carried r = true ∧ t = s.popInput.accept r) ∨
    (∃ rest, s.inputs = .await :: rest ∧ t = s.popInput) ∨
    (∃ rest, s.inputs = .reset :: rest ∧ t = s.popInput.resetBlock) := by
  unfold hostMove at h
  split at h
  next hl => exact .inl ⟨hl, by simpa using h.symm⟩
  next r rest hl =>
    obtain ⟨hc, ht⟩ := hostIssue_eq_next.1 h
    exact .inr (.inl ⟨r, rest, hl, hc, ht⟩)
  next rest hl => exact .inr (.inr (.inl ⟨rest, hl, by simpa using h.symm⟩))
  next rest hl => exact .inr (.inr (.inr ⟨rest, hl, by simpa [hostReset] using h.symm⟩))

/-! ### The frame buffer -/

/-- What a presentable buffer holds. -/
theorem presentable_iff {b : FrameBuf} :
    presentable b = true ↔ min b.len.toNat 92 ≤ b.bytes.length ∧ b.bytes.length ≤ b.len.toNat := by
  simp [presentable, holdsReadable, withinLength, Config.maxFrameRead]

/-- Every offset that R45 lets the decoder read holds a byte. -/
theorem readByte_of_presentable {b : FrameBuf} (hp : presentable b = true) {off : Nat} (hn : off < b.len.toNat)
    (hm : off < 92) : readByte b off = some (b.bytes.getD off 0) := by
  have h := (presentable_iff.1 hp).1
  have hl : off < b.bytes.length := by omega
  simp [readByte, hn, hl]

theorem memRead2_of_presentable {b : FrameBuf} (hp : presentable b = true) {off : Nat} (hn : off + 1 < b.len.toNat)
    (hm : off + 1 < 92) :
    memRead2 b off = some (bigEndian2 (b.bytes.getD off 0) (b.bytes.getD (off + 1) 0)) := by
  simp only [memRead2, readByte_of_presentable hp (show off < b.len.toNat by omega) (by omega),
    readByte_of_presentable hp hn hm]

theorem memRead4_of_presentable {b : FrameBuf} (hp : presentable b = true) {off : Nat} (hn : off + 3 < b.len.toNat)
    (hm : off + 3 < 92) :
    memRead4 b off = some (bigEndian4 (b.bytes.getD off 0) (b.bytes.getD (off + 1) 0) (b.bytes.getD (off + 2) 0)
      (b.bytes.getD (off + 3) 0)) := by
  simp only [memRead4, readByte_of_presentable hp (show off < b.len.toNat by omega) (by omega),
    readByte_of_presentable hp (show off + 1 < b.len.toNat by omega) (by omega),
    readByte_of_presentable hp (show off + 2 < b.len.toNat by omega) (by omega), readByte_of_presentable hp hn hm]

theorem readSlice_of_presentable {b : FrameBuf} (hp : presentable b = true) {off k : Nat} (hn : off + k ≤ b.len.toNat)
    (hm : off + k ≤ 92) : readSlice b off k = some ((b.bytes.drop off).take k) := by
  have h := (presentable_iff.1 hp).1
  have hl : off + k ≤ b.bytes.length := by omega
  simp [readSlice, hn, hl]

/-- A slice has the bytes asked for. -/
theorem readSlice_length {b : FrameBuf} {off k : Nat} {l : List Byte} (h : readSlice b off k = some l) :
    l.length = k := by
  unfold readSlice at h
  split at h
  next hl => simp only [Option.some.injEq] at h; subst h; simp; omega
  next => simp at h

/-! ### The DLC -/

theorem dlcLookup_eq_none {table : Vector (BitVec 7) 16} {d : Byte} : dlcLookup table d = none ↔ 15 < d.toNat := by
  simp only [dlcLookup, Vector.getElem?_eq_none_iff]
  omega

theorem dlcLookup_eq_some {table : Vector (BitVec 7) 16} {d : Byte} {l : BitVec 7} :
    dlcLookup table d = some l ↔ ∃ h : d.toNat < 16, table[d.toNat] = l := by
  simp [dlcLookup, Vector.getElem?_eq_some_iff]

/-- Every length of the table fits the data port, said for `decide`. -/
theorem dlcTable_le_fin : ∀ j : Fin 16, (dlcTable[j.val]).toNat ≤ 64 := by decide

/-- Every length of the table fits the data port. -/
theorem dlcTable_le (i : Nat) (h : i < 16) : (dlcTable[i]).toNat ≤ 64 := dlcTable_le_fin ⟨i, h⟩

/-- A length that the lookup gives fits the data port. -/
theorem dlcLookup_le {d : Byte} {l : BitVec 7} (h : dlcLookup dlcTable d = some l) : l.toNat ≤ 64 := by
  obtain ⟨hd, rfl⟩ := dlcLookup_eq_some.1 h
  exact dlcTable_le _ hd

/-- In LOW_NIBBLE mode the DLC is the byte modulo 16 (R103). -/
theorem dlcOf_lowNibble (b : Byte) : (dlcOf .lowNibble b).toNat = b.toNat % 16 := by
  simp [dlcOf, BitVec.extractLsb'_toNat]
  omega

end Sys2Proof.Machine
end

