-- ==== Sys2Proof/Laws/Decode.lean ====
section
/-! SUPPORT. What the decoder answers for each op, and for each kind of buffer. -/

namespace Sys2Proof.Machine

/-- A CAN.DECODE request with a presentable buffer decodes to its buffer's instruction. -/
theorem decode_canDecode {r : Request} (ho : r.op = opCanDecode) (hp : presentable r.frameBuf = true) :
    decode r = .ok (decodeBuffer r.frameBuf) := by
  simp only [presentable, Bool.and_eq_true] at hp
  simp [decode, ho, hp.1, hp.2, opCanDecode, opHdrDecode, opHdrEncode]

/-- A CAN.DECODE request with another buffer is rejected. -/
theorem decode_not_presentable {r : Request} (ho : r.op = opCanDecode) (hp : presentable r.frameBuf = false) :
    ∃ e, decode r = .error e := by
  by_cases hh : holdsReadable r.frameBuf = true
  · have hw : withinLength r.frameBuf = false := by simpa [presentable, hh] using hp
    exact ⟨.bytesPastLength, by simp [decode, ho, hh, hw, opCanDecode, opHdrDecode, opHdrEncode]⟩
  · exact ⟨.bytesMissing, by simp [decode, ho, hh, opCanDecode, opHdrDecode, opHdrEncode]⟩

/-- The frame buffer of a buffer's request is the buffer. -/
@[simp] theorem frameBuf_bufferRequest (b : FrameBuf) : (bufferRequest b).frameBuf = b := rfl

/-- A presentable buffer's request decodes to the buffer's instruction. -/
theorem decode_bufferRequest {b : FrameBuf} (h : presentable b = true) :
    decode (bufferRequest b) = .ok (decodeBuffer b) :=
  decode_canDecode (r := bufferRequest b) rfl h

/-- A frame of at least 4 bytes decodes by its tag (R65). -/
theorem decodeBuffer_frame (f : GwFrame) (t : Byte) (hn : 4 ≤ f.len.toNat) :
    decodeBuffer (f.buf t) =
      if t = tagCan20 then .gwCan20 f else if t = tagCan20Crc then .gwCan20Crc f
      else if t = tagCanfd then .gwCanfd f else if t = tagCanfdCrc then .gwCanfdCrc f else .canDecode (f.buf t) := by
  have h4 : ¬f.len.toNat < 4 := by omega
  simp [decodeBuffer, GwFrame.buf, h4]

/-- A buffer with no recognized tag decodes to the plain CAN.DECODE. -/
theorem decodeBuffer_untagged {b : FrameBuf} (h : hasRecognizedTag b = false) : decodeBuffer b = .canDecode b := by
  unfold decodeBuffer
  split
  next b0 b1 b2 t rest hb =>
    by_cases hn : b.len.toNat < 4
    · simp [hn]
    · have h4 : 4 ≤ b.len.toNat := by omega
      simp [hasRecognizedTag, hb, h4, recognized] at h
      simp [hn, h]
  next => rfl

/-- Everything a buffer decodes to: the plain CAN.DECODE, or the row of its tag. -/
theorem decodeBuffer_cases (b : FrameBuf) :
    (hasRecognizedTag b = false ∧ decodeBuffer b = .canDecode b) ∨
    ∃ f tag, 4 ≤ f.len.toNat ∧ b = f.buf tag ∧
      (tag = tagCan20 ∧ decodeBuffer b = .gwCan20 f ∨ tag = tagCan20Crc ∧ decodeBuffer b = .gwCan20Crc f ∨
        tag = tagCanfd ∧ decodeBuffer b = .gwCanfd f ∨ tag = tagCanfdCrc ∧ decodeBuffer b = .gwCanfdCrc f) := by
  by_cases h : hasRecognizedTag b = true
  · right
    obtain ⟨len, bytes⟩ := b
    simp only [hasRecognizedTag, Bool.and_eq_true, decide_eq_true_eq] at h
    rcases bytes with _ | ⟨b0, _ | ⟨b1, _ | ⟨b2, _ | ⟨t, rest⟩⟩⟩⟩ <;> simp at h
    refine ⟨⟨len, b0, b1, b2, rest⟩, t, h.1, rfl, ?_⟩
    have hd := decodeBuffer_frame ⟨len, b0, b1, b2, rest⟩ t h.1
    simp only [GwFrame.buf] at hd
    rw [hd]
    have ht := h.2
    simp only [recognized, Bool.or_eq_true, beq_iff_eq, or_assoc] at ht
    rcases ht with rfl | rfl | rfl | rfl <;> simp [tagCan20, tagCan20Crc, tagCanfd, tagCanfdCrc]
  · exact .inl ⟨by simpa using h, decodeBuffer_untagged (by simpa using h)⟩

/-- Everything a request decodes to. -/
theorem decode_cases {r : Request} {i : Instr} (h : decode r = .ok i) :
    (r.op = opHdrDecode ∧ i = .hdrDecode r.hdrWord) ∨
    (r.op = opHdrEncode ∧
      i = .hdrEncode r.priority r.source r.destination r.destPort r.sourcePort r.reserved r.flags) ∨
    (r.op = opCanDecode ∧ presentable r.frameBuf = true ∧ i = decodeBuffer r.frameBuf) ∨
    (r.op = opDlcLen ∧ i = .dlcLen r.dlc) := by
  by_cases h2 : r.op = opCanDecode
  · by_cases hp : presentable r.frameBuf = true
    · rw [decode_canDecode h2 hp] at h
      exact .inr (.inr (.inl ⟨h2, hp, by simpa using h.symm⟩))
    · obtain ⟨e, he⟩ := decode_not_presentable h2 (by simpa using hp)
      rw [he] at h
      cases h
  · unfold decode at h
    split at h
    next h0 => exact .inl ⟨h0, by simpa using h.symm⟩
    next h0 =>
      split at h
      next h1 => exact .inr (.inl ⟨h1, by simpa using h.symm⟩)
      next h1 =>
        refine .inr (.inr (.inr ⟨?_, by simpa using h.symm⟩))
        have := r.op.isLt
        simp only [opHdrDecode, opHdrEncode, opCanDecode, opDlcLen, ← BitVec.toNat_inj] at h0 h1 h2 ⊢
        simp at h0 h1 h2 ⊢
        omega

end Sys2Proof.Machine
end

