-- ==== Sys2Proof/Laws/Gateway.lean ====
section
/-! SUPPORT. What the frame decoder can do: every way it answers, and what it answers on a presentable buffer. -/

namespace Sys2Proof.Machine

/-- The responses of CAN.DECODE on a buffer with this tag, in this state: an error with no frame, or a frame with the
table's length of its DLC. -/
def FrameOutcome (tag : Byte) (s : State) (r : Response) : Prop :=
  (∃ e, (e = .truncated ∨ (e = .invalidDlc ∧ s.cfg = .fullByte)) ∧ r = undriven .canDecode e s.draws) ∨
  (∃ F W b21 len data, r = frameResponse tag F W (dlcOf s.cfg b21) len data s.draws ∧
    dlcLookup s.dlcTable (dlcOf s.cfg b21) = some len ∧ data.length = len.toNat)

theorem decodeData_eq_next {tag : Byte} {b : FrameBuf} {F : BitVec 16} {W : Word} {b21 : Byte} {s t : State}
    (h : decodeData tag b F W b21 s = .next t) : ∃ r, t = s.respond r ∧ FrameOutcome tag s r := by
  simp only [decodeData] at h
  split at h
  next hn =>
    refine ⟨_, raiseStatus_eq_next.1 h, .inl ⟨_, .inr ⟨rfl, ?_⟩, rfl⟩⟩
    cases hm : s.cfg with
    | fullByte => rfl
    | lowNibble =>
      rw [dlcLookup_eq_none, hm, dlcOf_lowNibble] at hn
      omega
  next len hl =>
    split at h
    · exact ⟨_, raiseStatus_eq_next.1 h, .inl ⟨_, .inl rfl, rfl⟩⟩
    · split at h
      next data hd => exact ⟨_, finish_eq_next.1 h, .inr ⟨_, _, _, _, _, rfl, hl, readSlice_length hd⟩⟩
      next => simp at h

theorem decodeTagged_eq_next {tag : Byte} {b : FrameBuf} {s t : State} (h : decodeTagged tag b s = .next t) :
    ∃ r, t = s.respond r ∧ FrameOutcome tag s r := by
  unfold decodeTagged at h
  split at h
  · exact ⟨_, raiseStatus_eq_next.1 h, .inl ⟨_, .inl rfl, rfl⟩⟩
  · split at h
    next => exact decodeData_eq_next h
    next => simp at h

theorem decodeFrame_eq_next {tag : Byte} {f : GwFrame} {s t : State} (h : decodeFrame tag f s = .next t) :
    ∃ r, t = s.respond r ∧ FrameOutcome tag s r := by
  unfold decodeFrame at h
  split at h
  · exact ⟨_, raiseStatus_eq_next.1 h, .inl ⟨_, .inl rfl, rfl⟩⟩
  · exact decodeTagged_eq_next h

/-- Every way CAN.DECODE answers: the tag is unknown, or it is recognized and the decoder answers as for that tag. -/
theorem execCanDecode_eq_next {b : FrameBuf} {s t : State} (h : execCanDecode b s = .next t) :
    ∃ r, t = s.respond r ∧
      (r = undriven .canDecode .unknownFrameType s.draws ∨ ∃ tag, recognized tag = true ∧ FrameOutcome tag s r) := by
  unfold execCanDecode at h
  split at h
  · exact ⟨_, raiseStatus_eq_next.1 h, .inr ⟨tagCan20, by decide, .inl ⟨_, .inl rfl, rfl⟩⟩⟩
  · split at h
    next => simp at h
    next tag _ =>
      split at h
      next => exact ⟨_, raiseStatus_eq_next.1 h, .inl rfl⟩
      next hr =>
        obtain ⟨r, ht, ho⟩ := decodeTagged_eq_next h
        exact ⟨r, ht, .inr ⟨tag, by simpa using hr, ho⟩⟩

/-- The byte at an offset of a buffer. -/
def heldByte (b : FrameBuf) (i : Nat) : Byte := b.bytes.getD i 0

/-- Steps 3 to 8 on a presentable buffer that fails no check. -/
theorem decodeTagged_ok {tag : Byte} {b : FrameBuf} {s : State} {len : BitVec 7} (hp : presentable b = true)
    (hl : dlcLookup s.dlcTable (dlcOf s.cfg (heldByte b 21)) = some len) (h64 : len.toNat ≤ 64)
    (hn : 28 + len.toNat ≤ b.len.toNat) :
    decodeTagged tag b s = finish (frameResponse tag (bigEndian2 (heldByte b 22) (heldByte b 23))
      (bigEndian4 (heldByte b 24) (heldByte b 25) (heldByte b 26) (heldByte b 27)) (dlcOf s.cfg (heldByte b 21)) len
      ((b.bytes.drop 28).take len.toNat) s.draws) s := by
  have h28 : ¬b.len.toNat < Config.frameHdrBytes := by simp only [Config.frameHdrBytes]; omega
  have hlen : ¬b.len.toNat < 28 + len.toNat := by omega
  simp only [decodeTagged, h28, if_false, memRead2_of_presentable hp (show 22 + 1 < b.len.toNat by omega) (by decide),
    memRead4_of_presentable hp (show 24 + 3 < b.len.toNat by omega) (by decide),
    readByte_of_presentable hp (show 21 < b.len.toNat by omega) (by decide), decodeData]
  simp only [heldByte] at hl
  simp only [hl, hlen, if_false, Config.frameHdrBytes, heldByte, readSlice_of_presentable hp hn (by omega), Nat.reduceAdd]

/-- Steps 3 to 8 on a presentable buffer of fewer than 28 bytes. -/
theorem decodeTagged_short {tag : Byte} {b : FrameBuf} {s : State} (hn : b.len.toNat < 28) :
    decodeTagged tag b s = raiseStatus .canDecode .truncated s := by
  simp [decodeTagged, Config.frameHdrBytes, hn]

/-- Steps 3 to 8 on a presentable buffer with a DLC above 15. -/
theorem decodeTagged_invalid {tag : Byte} {b : FrameBuf} {s : State} (hp : presentable b = true)
    (hn : 28 ≤ b.len.toNat) (hd : 15 < (dlcOf s.cfg (heldByte b 21)).toNat) :
    decodeTagged tag b s = raiseStatus .canDecode .invalidDlc s := by
  have h28 : ¬b.len.toNat < Config.frameHdrBytes := by simp only [Config.frameHdrBytes]; omega
  have hl := (dlcLookup_eq_none (table := s.dlcTable)).2 hd
  simp only [heldByte] at hl
  simp only [decodeTagged, h28, if_false, memRead2_of_presentable hp (show 22 + 1 < b.len.toNat by omega) (by decide),
    memRead4_of_presentable hp (show 24 + 3 < b.len.toNat by omega) (by decide),
    readByte_of_presentable hp (show 21 < b.len.toNat by omega) (by decide), decodeData, hl]

/-- Steps 3 to 8 on a presentable buffer that ends before its data does. -/
theorem decodeTagged_cut {tag : Byte} {b : FrameBuf} {s : State} {len : BitVec 7} (hp : presentable b = true)
    (h28' : 28 ≤ b.len.toNat) (hl : dlcLookup s.dlcTable (dlcOf s.cfg (heldByte b 21)) = some len)
    (hn : b.len.toNat < 28 + len.toNat) :
    decodeTagged tag b s = raiseStatus .canDecode .truncated s := by
  have h28 : ¬b.len.toNat < Config.frameHdrBytes := by simp only [Config.frameHdrBytes]; omega
  have hlen : b.len.toNat < Config.frameHdrBytes + len.toNat := by simpa only [Config.frameHdrBytes] using hn
  simp only [heldByte] at hl
  simp only [decodeTagged, h28, if_false, memRead2_of_presentable hp (show 22 + 1 < b.len.toNat by omega) (by decide),
    memRead4_of_presentable hp (show 24 + 3 < b.len.toNat by omega) (by decide),
    readByte_of_presentable hp (show 21 < b.len.toNat by omega) (by decide), decodeData, hl, hlen, if_true]

/-- CAN.DECODE on a presentable buffer with a tag. -/
theorem execCanDecode_of_presentable {b : FrameBuf} (hp : presentable b = true) (hn : 4 ≤ b.len.toNat) (s : State) :
    execCanDecode b s = if recognized (heldByte b 3) = true then decodeTagged (heldByte b 3) b s
      else raiseStatus .canDecode .unknownFrameType s := by
  have h4 : ¬b.len.toNat < 4 := by omega
  simp only [execCanDecode, h4, if_false, readByte_of_presentable hp (show 3 < b.len.toNat by omega) (by decide),
    heldByte]
  by_cases h : recognized (b.bytes.getD 3 0) = true <;> simp only [h, Bool.not_true, Bool.not_false, if_true] <;> simp

/-- A gateway row is CAN.DECODE of the frame with a recognized tag. -/
theorem decodeFrame_eq_execCanDecode {tag : Byte} (ht : recognized tag = true) (f : GwFrame) (s : State) :
    decodeFrame tag f s = execCanDecode (f.buf tag) s := by
  unfold decodeFrame execCanDecode
  by_cases h : f.len.toNat < 4
  · simp [GwFrame.buf, h]
  · have h3 : 3 < f.len.toNat := by omega
    simp [GwFrame.buf, h, readByte, h3, ht]

end Sys2Proof.Machine
end

