-- ==== Sys2Proof/Laws/PerInstr.lean ====
section
/-! SUPPORT. One lemma for each instruction: the encoding of a well-formed instruction is a request the operand ports
carry. -/

namespace Sys2Proof.Laws.Carried

open Sys2Proof.Machine

/-- The encoding of a well-formed instruction is a request the operand ports carry. -/
def Statement (i : Instr) : Prop := i.wf = true → carried (encode i) = true

/-- A CAN.DECODE request with a presentable buffer is carried. -/
theorem carried_bufferRequest {b : FrameBuf} (h : presentable b = true) : carried (bufferRequest b) = true :=
  carried_iff.2 ⟨_, decode_canDecode (r := bufferRequest b) rfl h⟩

theorem presentable_of_check {b : FrameBuf} (h : b.check = none) : presentable b = true := by
  unfold FrameBuf.check at h
  split at h
  · simp at h
  · split at h
    · simp at h
    · simp_all [presentable]

/-- The tag's value does not matter to whether the ports carry a frame. -/
theorem presentable_of_frame_check {f : GwFrame} (h : f.check = none) (tag : Byte) : presentable (f.buf tag) = true := by
  unfold GwFrame.check at h
  split at h
  · simp at h
  · have hp := presentable_iff.1 (presentable_of_check h)
    exact presentable_iff.2 (by simpa [GwFrame.buf] using hp)

theorem frame_case {f : GwFrame} {tag : Byte} (h : f.check.isNone = true) :
    carried (bufferRequest (f.buf tag)) = true :=
  carried_bufferRequest (presentable_of_frame_check (by simpa using h) tag)

theorem hdrDecode (w : Word) : Statement (.hdrDecode w) := by
  intro _
  simp [carried, decode, encode, blankRequest, opHdrDecode]

theorem hdrEncode (p src dst dp sp rs fl : Word) : Statement (.hdrEncode p src dst dp sp rs fl) := by
  intro _
  simp [carried, decode, encode, blankRequest, opHdrDecode, opHdrEncode]

theorem canDecode (b : FrameBuf) : Statement (.canDecode b) := by
  intro h
  refine carried_bufferRequest (presentable_of_check ?_)
  simp only [Instr.wf, Instr.check] at h
  split at h <;> simp_all

theorem dlcLen (d : Byte) : Statement (.dlcLen d) := by
  intro _
  simp [carried, decode, encode, blankRequest, opHdrDecode, opHdrEncode, opCanDecode, opDlcLen]

theorem gwCan20 (f : GwFrame) : Statement (.gwCan20 f) := fun h => frame_case h
theorem gwCan20Crc (f : GwFrame) : Statement (.gwCan20Crc f) := fun h => frame_case h
theorem gwCanfd (f : GwFrame) : Statement (.gwCanfd f) := fun h => frame_case h
theorem gwCanfdCrc (f : GwFrame) : Statement (.gwCanfdCrc f) := fun h => frame_case h

end Sys2Proof.Laws.Carried
end

