-- ==== Sys2Proof/Laws/Step.lean ====
section
/-! SUPPORT. What an instruction and a step can do, said once, and how runs are put together. -/

namespace Sys2Proof.Machine

/-- Every instruction that answers does so by one response. -/
theorem exec_eq_respond {i : Instr} {s t : State} (h : exec i s = .next t) : ∃ r, t = s.respond r := by
  cases i with
  | hdrDecode w => exact ⟨_, finish_eq_next.1 h⟩
  | hdrEncode p src dst dp sp rs fl => exact ⟨_, finish_eq_next.1 h⟩
  | canDecode b =>
    obtain ⟨r, ht, _⟩ := execCanDecode_eq_next h
    exact ⟨r, ht⟩
  | dlcLen d =>
    simp only [exec, execDlcLen] at h
    split at h
    · exact ⟨_, raiseStatus_eq_next.1 h⟩
    · exact ⟨_, finish_eq_next.1 h⟩
  | gwCan20 f =>
    obtain ⟨r, ht, _⟩ := decodeFrame_eq_next h
    exact ⟨r, ht⟩
  | gwCan20Crc f =>
    obtain ⟨r, ht, _⟩ := decodeFrame_eq_next h
    exact ⟨r, ht⟩
  | gwCanfd f =>
    obtain ⟨r, ht, _⟩ := decodeFrame_eq_next h
    exact ⟨r, ht⟩
  | gwCanfdCrc f =>
    obtain ⟨r, ht, _⟩ := decodeFrame_eq_next h
    exact ⟨r, ht⟩

/-- With a reset first in the queue a step is the reset. -/
theorem step_reset {s : State} {rest : List HostAction} (h : s.inputs = .reset :: rest) :
    step s = .next s.popInput.resetBlock := by
  simp [step, transition, h, hostReset]

/-- With a request pending and no reset first a step is BlockRespond. -/
theorem step_pending {s : State} {r : Request} (hp : s.pending = some r) (hn : s.inputs.head? ≠ some .reset) :
    step s = blockRespond r s := by
  unfold step transition
  split
  next h => simp [h] at hn
  next => simp [hp]

/-- With nothing pending a step is the Host's move. -/
theorem step_idle {s : State} (hp : s.pending = none) : step s = hostMove s := by
  unfold step transition hostMove
  split
  next h => simp [h]
  next => simp [hp]

/-- No reset stands first in the queue of a state made by `present`. -/
theorem head_dropWhile_isReset (l : List HostAction) : (l.dropWhile isReset).head? ≠ some .reset := by
  induction l with
  | nil => simp
  | cons a l ih => cases a <;> simp_all [List.dropWhile, isReset]

/-- Everything a step can do. -/
theorem step_cases {s t : State} (h : step s = .next t) :
    (∃ rest, s.inputs = .reset :: rest ∧ t = s.popInput.resetBlock) ∨
    (∃ r i q, s.pending = some r ∧ decode r = .ok i ∧ exec i s = .next t ∧ t = s.respond q) ∨
    (s.pending = none ∧
      ((s.inputs = [] ∧ t = s) ∨
       (∃ r rest, s.inputs = .issue r :: rest ∧ carried r = true ∧ t = s.popInput.accept r) ∨
       (∃ rest, s.inputs = .await :: rest ∧ t = s.popInput))) := by
  unfold step transition at h
  split at h
  next rest hl => exact .inl ⟨rest, hl, by simpa [hostReset] using h.symm⟩
  next =>
    split at h
    next r hr =>
      unfold blockRespond at h
      split at h
      next i hi =>
        obtain ⟨q, hq⟩ := exec_eq_respond h
        exact .inr (.inl ⟨r, i, q, hr, hi, h, hq⟩)
      next => simp at h
    next hp =>
      rcases hostMove_eq_next h with h | h | h | ⟨rest, hr, ht⟩
      · exact .inr (.inr ⟨hp, .inl h⟩)
      · exact .inr (.inr ⟨hp, .inr (.inl h)⟩)
      · exact .inr (.inr ⟨hp, .inr (.inr h)⟩)
      · exact .inl ⟨rest, hr, ht⟩

/-- One step more, at the front of a run. -/
theorem run_succ_of_step {k : Nat} {s t : State} (h : step s = .next t) :
    Host.Core.run core (k + 1) s = Host.Core.run core k t := by
  have hc : core.step s = .next t := h
  simp only [Host.Core.run, hc]

/-- A run in two parts. -/
theorem run_add {M : Host.Core} {j k : Nat} {s t : M.State} (h : M.run j s = .next t) :
    M.run (j + k) s = M.run k t := by
  induction j generalizing s with
  | zero =>
    simp only [Host.Core.run, Host.Outcome.next.injEq] at h
    simp [h]
  | succ j ih =>
    rw [Nat.add_right_comm]
    simp only [Host.Core.run] at h ⊢
    split at h
    next s' hs => exact ih h
    next => cases h
    next => cases h

end Sys2Proof.Machine
end

