-- ==== Sys2Proof/Tests/Slice0.lean ====
section
/-! SUPPORT. Small tests. Every expected value is a vector of spec/95_test_vectors.md (named V-…) or is written out by hand
from the rule named; and for each statement with hypotheses a witness that meets them. -/

namespace Sys2Proof.Tests

open Sys2Proof.Machine Sys2Proof.Claims

/-- `P(tag, b21, b22 b23, W)` of 95_test_vectors.md, W as its four bytes. -/
def prefix28 (tag b21 b22 b23 w0 w1 w2 w3 : Byte) : List Byte :=
  [0, 0, 0, tag] ++ List.replicate 17 0 ++ [b21, b22, b23, w0, w1, w2, w3]

/-- A buffer whose snapshot holds all its bytes. -/
def bufOf (l : List Byte) : FrameBuf := { len := BitVec.ofNat 16 l.length, bytes := l }

/-- The gateway frame of a byte list, less its tag. -/
def frameOf (l : List Byte) : GwFrame :=
  { len := BitVec.ofNat 16 l.length, b0 := l.getD 0 0, b1 := l.getD 1 0, b2 := l.getD 2 0, rest := l.drop 4 }

/-- What the Host reads after an instruction. -/
def readOf (o : StepOutcome) : Option Answer :=
  match o with
  | .next t => t.answer
  | .fault _ => none
  | .refused _ => none

/-- The FULL_BYTE instance after reset. -/
def fullByteReset : State := State.resetFor .fullByte

/-- The answer OK with a CanFrame. -/
def okFrame (tag : Byte) (err brs edl ext rtr : Bool) (id : BitVec 30) (dlc : Byte) (data : List Byte) : Option Answer :=
  some (.frame { frameType := tag, errorState := err, bitRateSwitch := brs, extendedDataLength := edl,
                 isExtendedId := ext, isRemoteRequest := rtr, canId := id, dlc := dlc, data := data })

/-! ### WellFormed refuses each kind of ill-formed instruction -/

theorem test_wf_bytes_missing : (Instr.canDecode ⟨4, [0, 0, 0]⟩).check = some .bytesMissing := by decide
theorem test_wf_bytes_past_length : (Instr.canDecode ⟨3, [0, 0, 0, 0]⟩).check = some .bytesPastLength := by decide
theorem test_wf_frame_without_tag : (Instr.gwCanfd ⟨3, 0, 0, 0, []⟩).check = some .frameWithoutTag := by decide
theorem test_wf_tag_has_its_own_row : (Instr.canDecode ⟨4, [0, 0, 0, 0x80]⟩).check = some .tagHasItsOwnRow := by decide
theorem test_wf_frame_bytes_missing : (Instr.gwCan20 ⟨28, 0, 0, 0, []⟩).check = some .bytesMissing := by decide
theorem test_wf_long_buffer_held_in_part :
    (Instr.canDecode ⟨60000, List.replicate 92 0⟩).wf = true := by decide

/-! ### Decoding: requests written out from R60 and R65 -/

theorem test_decode_hdr_decode :
    decode { blankRequest 0b00 with hdrWord := 0xDEADBEEF } = .ok (.hdrDecode 0xDEADBEEF) := by rfl
theorem test_decode_hdr_encode :
    decode { blankRequest 0b01 with
      priority := 1, source := 2, destination := 3, destPort := 4, sourcePort := 5, reserved := 6, flags := 7 } =
      .ok (.hdrEncode 1 2 3 4 5 6 7) := by rfl
theorem test_decode_can_decode :
    decode { blankRequest 0b10 with bufLen := 4, buf := [9, 9, 9, 0b10000010] } =
      .ok (.canDecode ⟨4, [9, 9, 9, 0x82]⟩) := by rfl
theorem test_decode_dlc_len : decode { blankRequest 0b11 with dlc := 9 } = .ok (.dlcLen 9) := by rfl
theorem test_decode_gw_can20 :
    decode { blankRequest 0b10 with bufLen := 5, buf := [1, 2, 3, 0b10000000, 5] } = .ok (.gwCan20 ⟨5, 1, 2, 3, [5]⟩) := by
  rfl
theorem test_decode_gw_can20_crc :
    decode { blankRequest 0b10 with bufLen := 4, buf := [1, 2, 3, 0b10000001] } = .ok (.gwCan20Crc ⟨4, 1, 2, 3, []⟩) := by
  rfl
theorem test_decode_gw_canfd :
    decode { blankRequest 0b10 with bufLen := 4, buf := [1, 2, 3, 0b10010000] } = .ok (.gwCanfd ⟨4, 1, 2, 3, []⟩) := by
  rfl
theorem test_decode_gw_canfd_crc :
    decode { blankRequest 0b10 with bufLen := 4, buf := [1, 2, 3, 0b10010001] } = .ok (.gwCanfdCrc ⟨4, 1, 2, 3, []⟩) := by
  rfl
theorem test_decode_rejects_missing_bytes :
    decode { blankRequest 0b10 with bufLen := 28, buf := [0] } = .error .bytesMissing := by rfl
theorem test_decode_rejects_bytes_past_length :
    decode { blankRequest 0b10 with bufLen := 0, buf := [0] } = .error .bytesPastLength := by rfl

/-- Each table row's word is read as the row's instruction (opcode_table.json's match values). -/
theorem test_table_words :
    decodeTableWord 8 0x0 = some (.hdrDecode 0) ∧ decodeTableWord 8 0x1 = some (.hdrEncode 0 0 0 0 0 0 0) ∧
    decodeTableWord 8 0x2 = some (.canDecode ⟨0, []⟩) ∧ decodeTableWord 8 0x3 = some (.dlcLen 0) ∧
    decodeTableWord 8 0x80 = some (.gwCan20 ⟨28, 0, 0, 0, List.replicate 24 0⟩) ∧
    decodeTableWord 8 0x81 = some (.gwCan20Crc ⟨28, 0, 0, 0, List.replicate 24 0⟩) ∧
    decodeTableWord 8 0x90 = some (.gwCanfd ⟨28, 0, 0, 0, List.replicate 24 0⟩) ∧
    decodeTableWord 8 0x91 = some (.gwCanfdCrc ⟨28, 0, 0, 0, List.replicate 24 0⟩) ∧ decodeTableWord 8 0x82 = none := by
  decide

/-- A placed table word is what the next step runs, also past a reset that stood first in the queue. -/
theorem test_step_runs_a_table_word :
    readOf (step ({ State.reset with inputs := [.reset, .await] }.withFetchWord 8 0x90)) =
      okFrame 0x90 false false false false false 0 0 [] := by decide

/-! ### The header codec -/

/-- V-HDR-11. -/
theorem test_hdr_decode_mixed :
    readOf (exec (.hdrDecode 0x12345678) State.reset) = some (.header ⟨0, 9, 3, 17, 22, 7, 8⟩) := by decide
/-- V-HDR-12. -/
theorem test_hdr_decode_deadbeef :
    readOf (exec (.hdrDecode 0xDEADBEEF) State.reset) = some (.header ⟨3, 15, 10, 54, 62, 14, 15⟩) := by decide
/-- V-HDR-15. -/
theorem test_hdr_encode_edges :
    readOf (exec (.hdrEncode 3 0 31 0 63 0 8) State.reset) = some (.word 0xC1F03F08) := by decide
/-- V-HDR-16: every operand out of range is masked. -/
theorem test_hdr_encode_masks :
    readOf (exec (.hdrEncode 5 33 64 65 0x1FF 0x13 0x1F) State.reset) = some (.word 0x42007F3F) := by decide
/-- Program P1's wire bytes (R40). -/
theorem test_wire_bytes : wireOfWord 0x94150A00 = (0x94, 0x15, 0x0A, 0x00) := by decide

/-! ### The frame decoder -/

/-- V-DLC-10. -/
theorem test_dlc_len_nine : readOf (exec (.dlcLen 9) State.reset) = some (.len 12) := by decide
/-- V-DLC-17. -/
theorem test_dlc_len_sixteen : readOf (exec (.dlcLen 16) State.reset) = some (.error .invalidDlc) := by decide
/-- V-CAN-29, with every port. -/
theorem test_can_decode_frame :
    readOf (exec (.canDecode (bufOf (prefix28 0x90 0x09 0x00 0x30 0x80 0x01 0x23 0x45 ++
      [0, 1, 2, 3, 4, 5, 6, 7, 8, 9, 10, 11]))) State.reset) =
      okFrame 0x90 false true true true false 0x12345 9 [0, 1, 2, 3, 4, 5, 6, 7, 8, 9, 10, 11] := by decide
/-- V-CAN-6: 27 bytes and an unknown tag, step 2 wins. -/
theorem test_can_decode_unknown_tag :
    readOf (exec (.canDecode (bufOf ((prefix28 0x7F 0 0 0 0 0 0 0).take 27))) State.reset) =
      some (.error .unknownFrameType) := by decide
/-- V-CAN-22: 4 trailing bytes are ignored. -/
theorem test_gw_can20_trailing :
    readOf (exec (.gwCan20 (frameOf (prefix28 0x80 0x08 0 0 0 0 0 0 ++
      [0x10, 0x11, 0x12, 0x13, 0x14, 0x15, 0x16, 0x17, 0xEE, 0xEE, 0xEE, 0xEE]))) State.reset) =
      okFrame 0x80 false false false false false 0 8 [0x10, 0x11, 0x12, 0x13, 0x14, 0x15, 0x16, 0x17] := by decide
/-- V-CAN-26: FULL_BYTE, byte 21 = 0x10. -/
theorem test_gw_can20_full_byte :
    readOf (exec (.gwCan20 (frameOf (prefix28 0x80 0x10 0 0 0 0 0 0))) fullByteReset) = some (.error .invalidDlc) := by
  decide
/-- V-CAN-15. -/
theorem test_gw_can20_crc_error_state :
    readOf (exec (.gwCan20Crc (frameOf (prefix28 0x81 0 0 0x40 0 0 0 0))) State.reset) =
      okFrame 0x81 true false false false false 0 0 [] := by decide
/-- V-CAN-17 on tag 0x81: both top ID bits. -/
theorem test_gw_can20_crc_id_bits :
    readOf (exec (.gwCan20Crc (frameOf (prefix28 0x81 0 0 0 0xC0 0 0 0))) State.reset) =
      okFrame 0x81 false false false true true 0 0 [] := by decide
/-- V-CAN-11: DLC 9 and one byte short. -/
theorem test_gw_canfd_cut :
    readOf (exec (.gwCanfd (frameOf (prefix28 0x90 0x09 0 0 0 0 0 0 ++ [0, 1, 2, 3, 4, 5, 6, 7, 8, 9, 10]))) State.reset) =
      some (.error .truncated) := by decide
/-- V-CAN-20 on tag 0x90: all 30 identifier bits. -/
theorem test_gw_canfd_id :
    readOf (exec (.gwCanfd (frameOf (prefix28 0x90 0 0 0 0x3F 0xFF 0xFF 0xFF))) State.reset) =
      okFrame 0x90 false false false false false 0x3FFFFFFF 0 [] := by decide
/-- V-CAN-12: DLC 15, 92 bytes. -/
theorem test_gw_canfd_crc_longest :
    readOf (exec (.gwCanfdCrc (frameOf (prefix28 0x91 0x0F 0 0x10 0 0 0 0 ++ List.replicate 64 0xAA))) State.reset) =
      okFrame 0x91 false false true false false 0 15 (List.replicate 64 0xAA) := by decide
/-- V-CAN-14 on tag 0x91: the ignored flag bits. -/
theorem test_gw_canfd_crc_ignored_bits :
    readOf (exec (.gwCanfdCrc (frameOf (prefix28 0x91 0 0xFF 0x8F 0 0 0 0))) State.reset) =
      okFrame 0x91 false false false false false 0 0 [] := by decide

/-! ### Status codes and reset -/

/-- R130. -/
theorem test_status_codes :
    Status.ok.code = 0b00 ∧ Status.truncated.code = 0b01 ∧ Status.unknownFrameType.code = 0b10 ∧
      Status.invalidDlc.code = 0b11 := by decide

/-- Program P4: a request pending at reset is discarded (R152). -/
theorem test_reset_discards :
    (match step { State.reset with pending := some (blankRequest 0b10), inputs := [.reset] } with
     | .next t => decide (t.pending = none ∧ t.resp = none)
     | .fault _ => false
     | .refused _ => false) = true := by decide

/-! ### Witnesses: a concrete state and operands that meet the hypotheses of each statement -/

/-- V-CAN-7: the shortest frame. -/
def shortest : FrameBuf := bufOf (prefix28 0x80 0 0 0 0 0 0 0)

/-- V-CAN-10: DLC 9, 40 bytes. -/
def dlcNine : FrameBuf := bufOf (prefix28 0x90 9 0 0x30 0 0 0 0 ++ [0, 1, 2, 3, 4, 5, 6, 7, 8, 9, 10, 11])

/-- V-CAN-26: DLC 16 as a full byte. -/
def dlcSixteen : FrameBuf := bufOf (prefix28 0x80 16 0 0 0 0 0 0)

/-- The bytes of `dlcNine` as a gateway frame. -/
def nineFrame : GwFrame := frameOf dlcNine.bytes

/-- A legal state with this request pending. -/
def pendingState (r : Request) : State := { State.reset with pending := some r }

/-- A legal state with these actions queued. -/
def queued (l : List HostAction) : State := { State.reset with inputs := l }

/-- An instruction or a step answers a next state. -/
def goesOn (o : StepOutcome) : Bool :=
  match o with
  | .next _ => true
  | .fault _ => false
  | .refused _ => false

theorem witness_StepRunsTheDecodedInstruction :
    (pendingState (blankRequest 0b11)).pending = some (blankRequest 0b11) ∧
      NoResetNext (pendingState (blankRequest 0b11)).inputs ∧ decode (blankRequest 0b11) = .ok (.dlcLen 0) ∧
      decodeTableWord 8 0x3 = some (.dlcLen 0) := by
  refine ⟨rfl, ?_, rfl, rfl⟩
  unfold NoResetNext
  decide
theorem witness_ResetDiscardsThePendingRequest : (queued [.reset, .await]).inputs = .reset :: [.await] := by decide
theorem witness_HostIssueTakesTheSnapshot :
    (queued [.issue (bufferRequest shortest)]).pending = none ∧
      (queued [.issue (bufferRequest shortest)]).inputs = .issue (bufferRequest shortest) :: [] ∧
      presentable (bufferRequest shortest).frameBuf = true := by decide
theorem witness_UnpresentableBufferIsRefused :
    (queued [.issue (bufferRequest ⟨28, []⟩)]).pending = none ∧
      (queued [.issue (bufferRequest ⟨28, []⟩)]).inputs = .issue (bufferRequest ⟨28, []⟩) :: [] ∧
      (bufferRequest ⟨28, []⟩).op = 0b10 ∧ presentable (bufferRequest ⟨28, []⟩).frameBuf = false := by decide
theorem witness_IdleStepsChangeNothing :
    (queued []).pending = none ∧ (queued []).inputs = [] ∧ (queued [.await]).pending = none ∧
      (queued [.await]).inputs = .await :: [] := by decide
theorem witness_HdrDecodeGivesTheSevenFields : (blankRequest 0b00).op = 0b00 := by decide
theorem witness_HdrEncodePacksTheMaskedOperands : (blankRequest 0b01).op = 0b01 := by decide
/-- The in-range clause of R85, at the upper end of every range. -/
theorem witness_DecodeOfEncodeIsTheMaskedOperands :
    (3 : Word).toNat < 4 ∧ (31 : Word).toNat < 32 ∧ (63 : Word).toNat < 64 ∧ (15 : Word).toNat < 16 := by decide
/-- Both clauses of R102, where they meet. -/
theorem witness_DlcLenReadsTheTable :
    (blankRequest 0b11).op = 0b11 ∧ State.reset.dlcTable = dlcTable ∧ (15 : Byte).toNat ≤ 15 ∧ 15 < (16 : Byte).toNat := by
  decide
/-- Exactly 28 and exactly 28 + 12 bytes. -/
theorem witness_CanDecodeAnswersTheFrame :
    ∀ b ∈ [shortest, dlcNine], presentable b = true ∧ State.reset.dlcTable = dlcTable ∧ Tagged b ∧
      LongEnough State.reset.cfg b := by
  unfold Tagged LongEnough
  decide
/-- The first two clauses at their boundary: 3 bytes, and 4 bytes with an unknown tag. -/
theorem witness_CanDecodeFirstFailingCheckWins :
    State.reset.dlcTable = dlcTable ∧ presentable (bufOf [0, 0, 0]) = true ∧ (bufOf [0, 0, 0]).len.toNat < 4 ∧
      presentable (bufOf [0, 0, 0, 0x7F]) = true ∧ 4 ≤ (bufOf [0, 0, 0, 0x7F]).len.toNat ∧
      ¬Tagged (bufOf [0, 0, 0, 0x7F]) := by
  unfold Tagged
  decide
/-- The third clause: 27 bytes. -/
theorem witness_CanDecodeFirstFailingCheckWins_short :
    presentable (bufOf (shortest.bytes.take 27)) = true ∧ Tagged (bufOf (shortest.bytes.take 27)) ∧
      4 ≤ (bufOf (shortest.bytes.take 27)).len.toNat ∧
      TaggedFails State.reset.cfg (bufOf (shortest.bytes.take 27)) 1 := by
  unfold Tagged TaggedFails
  decide
/-- The third clause: DLC 16 at 28 bytes. -/
theorem witness_CanDecodeFirstFailingCheckWins_invalid :
    presentable dlcSixteen = true ∧ Tagged dlcSixteen ∧ 4 ≤ dlcSixteen.len.toNat ∧ fullByteReset.dlcTable = dlcTable ∧
      TaggedFails fullByteReset.cfg dlcSixteen 3 := by
  unfold Tagged TaggedFails
  decide
/-- The third clause: one byte short of 28 + 12. -/
theorem witness_CanDecodeFirstFailingCheckWins_cut :
    presentable (bufOf (dlcNine.bytes.take 39)) = true ∧ Tagged (bufOf (dlcNine.bytes.take 39)) ∧
      4 ≤ (bufOf (dlcNine.bytes.take 39)).len.toNat ∧
      TaggedFails State.reset.cfg (bufOf (dlcNine.bytes.take 39)) 1 := by
  unfold Tagged TaggedFails
  decide
theorem witness_CanDecodeRequestIsAnsweredStepByStep :
    (pendingState (bufferRequest dlcNine)).pending = some (bufferRequest dlcNine) ∧
      NoResetNext (pendingState (bufferRequest dlcNine)).inputs ∧ (bufferRequest dlcNine).op = 0b10 ∧
      presentable (bufferRequest dlcNine).frameBuf = true ∧
      (pendingState (bufferRequest dlcNine)).dlcTable = dlcTable := by
  unfold NoResetNext
  decide
theorem witness_InvalidDlcIsRaisedOnlyAboveFifteen :
    presentable dlcSixteen = true ∧ fullByteReset.dlcTable = dlcTable ∧
      readOf (exec (.canDecode dlcSixteen) fullByteReset) = some (.error .invalidDlc) ∧
      readOf (exec (.dlcLen 16) fullByteReset) = some (.error .invalidDlc) := by decide
theorem witness_GatewayRowsAnswerTheFrame :
    ∀ row ∈ gwRows nineFrame, presentable row.2 = true ∧ State.reset.dlcTable = dlcTable ∧
      LongEnough State.reset.cfg row.2 := by
  unfold LongEnough
  decide
/-- The first check: 27 bytes. -/
theorem witness_GatewayRowsFailInOrder_short :
    ∀ row ∈ gwRows (frameOf (dlcNine.bytes.take 27)), presentable row.2 = true ∧ State.reset.dlcTable = dlcTable ∧
      TaggedFails State.reset.cfg row.2 1 := by
  unfold TaggedFails
  decide
/-- The second check: DLC 16 as a full byte, at 28 bytes. -/
theorem witness_GatewayRowsFailInOrder_invalid :
    ∀ row ∈ gwRows (frameOf dlcSixteen.bytes), presentable row.2 = true ∧ fullByteReset.dlcTable = dlcTable ∧
      TaggedFails fullByteReset.cfg row.2 3 := by
  unfold TaggedFails
  decide
/-- The third check: one byte short of 28 + 12. -/
theorem witness_GatewayRowsFailInOrder :
    ∀ row ∈ gwRows (frameOf (dlcNine.bytes.take 39)), presentable row.2 = true ∧ State.reset.dlcTable = dlcTable ∧
      TaggedFails State.reset.cfg row.2 1 := by
  unfold TaggedFails
  decide
theorem witness_GatewayRowsAreCanDecode : (Instr.gwCanfd nineFrame, nineFrame.buf 0x90) ∈ gwRows nineFrame := by decide
theorem witness_TagChangesFrameTypeAlone :
    ∀ row ∈ gwRows nineFrame, goesOn (exec row.1 State.reset) = true := by decide

/-- Bytes 0 to 2 and 4 to 20, the upper nibble of byte 21, byte 22 and the ignored bits of byte 23 differ from `dlcNine`. -/
def dlcNineOther : FrameBuf :=
  bufOf ([7, 7, 7, 0x90] ++ List.replicate 17 7 ++ [0xF9, 0xFF, 0xBF, 0, 0, 0, 0, 0, 1, 2, 3, 4, 5, 6, 7, 8, 9, 10, 11])

theorem witness_UninterpretedBytesChangeNothing :
    presentable dlcNine = true ∧ presentable dlcNineOther = true ∧ State.reset.dlcTable = dlcTable ∧
      dlcNine.len = dlcNineOther.len ∧ byteAt dlcNine 3 = byteAt dlcNineOther 3 ∧
      dlcAt State.reset.cfg dlcNine = dlcAt State.reset.cfg dlcNineOther ∧
      byteAt dlcNine 23 / 16 % 8 = byteAt dlcNineOther 23 / 16 % 8 ∧
      (∀ i, i < 28 + lenAt State.reset.cfg dlcNine → 24 ≤ i → byteAt dlcNine i = byteAt dlcNineOther i) ∧
      dlcNine ≠ dlcNineOther := by decide
theorem witness_TrailingBytesAreIgnored :
    presentable dlcNine = true ∧ presentable (bufOf (dlcNine.bytes ++ [0xEE])) = true ∧
      State.reset.dlcTable = dlcTable ∧ dlcAt State.reset.cfg dlcNine ≤ 15 ∧
      dlcNine.len.toNat = 28 + lenAt State.reset.cfg dlcNine ∧
      dlcNine.len.toNat ≤ (bufOf (dlcNine.bytes ++ [0xEE])).len.toNat ∧
      (∀ i, i < dlcNine.len.toNat → byteAt dlcNine i = byteAt (bufOf (dlcNine.bytes ++ [0xEE])) i) := by decide
/-- Two different states with one mode and the spec's table. -/
theorem witness_AnswerDependsOnRequestAndModeAlone :
    State.reset ≠ pendingState (blankRequest 0) ∧ State.reset.dlcTable = dlcTable ∧
      (pendingState (blankRequest 0)).dlcTable = dlcTable ∧
      State.reset.cfg = (pendingState (blankRequest 0)).cfg ∧ goesOn (exec (.dlcLen 8) State.reset) = true := by decide
theorem witness_EveryInstructionLeavesTheRest : goesOn (exec (.canDecode shortest) State.reset) = true := by decide
theorem witness_EveryCarriedRequestAnswers :
    decode (bufferRequest dlcNine) = .ok (.gwCanfd nineFrame) ∧ State.reset.dlcTable = dlcTable := ⟨rfl, rfl⟩
/-- A request pending with another one waiting. -/
def waitingState : State := { pendingState (blankRequest 0b01) with inputs := [.issue (blankRequest 0b00)] }

theorem witness_NextRequestWaitsForTheResponse :
    waitingState.dlcTable = dlcTable ∧ waitingState.pending = some (blankRequest 0b01) ∧
      NoResetNext waitingState.inputs ∧ carried (blankRequest 0b01) = true := by
  unfold NoResetNext
  decide
theorem witness_TableAndModeAreNeverWritten : goesOn (step waitingState) = true := by decide
theorem waitingState_legal : waitingState.Inv := by
  refine ⟨rfl, .inr rfl, fun r h => ?_, fun r h => ?_⟩
  · obtain rfl : blankRequest 0b01 = r := by simpa [waitingState, pendingState] using h
    decide
  · cases h
theorem witness_EveryStepKeepsTheLegalStates : waitingState.Inv ∧ goesOn (step waitingState) = true :=
  ⟨waitingState_legal, by decide⟩
theorem witness_LegalRunsNeverStop : waitingState.Inv ∧ waitingState.HostKeepsPorts := by
  refine ⟨waitingState_legal, fun r h => ?_⟩
  obtain rfl : r = blankRequest 0b00 := by simpa [waitingState] using h
  decide
/-- Two requests, and a wait after them. -/
def twoRequests : State := queued ([blankRequest 0b11, bufferRequest dlcNine].map .issue ++ [.await])

theorem witness_RequestsAreServedInOrder :
    twoRequests.Inv ∧ twoRequests.pending = none ∧
      twoRequests.inputs = ([blankRequest 0b11] ++ [bufferRequest dlcNine]).map .issue ++ [.await] ∧
      NoResetNext [.await] ∧ (∀ q ∈ [blankRequest 0b11] ++ [bufferRequest dlcNine], carried q = true) := by
  refine ⟨⟨rfl, .inl rfl, fun r h => ?_, fun r h => ?_⟩, rfl, rfl, ?_, by decide⟩
  · cases h
  · cases h
  · unfold NoResetNext
    decide
theorem witness_DecodeOfEncodeIsTheInstruction :
    (Instr.hdrDecode 5).wf = true ∧ (Instr.hdrEncode 1 2 3 4 5 6 7).wf = true ∧ (Instr.canDecode ⟨0, []⟩).wf = true ∧
      (Instr.dlcLen 7).wf = true ∧ (Instr.gwCan20 nineFrame).wf = true ∧ (Instr.gwCan20Crc nineFrame).wf = true ∧
      (Instr.gwCanfd nineFrame).wf = true ∧ (Instr.gwCanfdCrc nineFrame).wf = true := by decide
theorem witness_EncodeOfDecodeKeepsTheOperands :
    decode { blankRequest 0b11 with dlc := 9, hdrWord := 7 } = .ok (.dlcLen 9) := rfl
/-- Two requests that differ in a port their op does not read. -/
theorem witness_OnlyThePortsOfTheOpAreRead :
    SameOperands (blankRequest 0b00) { blankRequest 0b00 with dlc := 3 } ∧
      blankRequest 0b00 ≠ { blankRequest 0b00 with dlc := 3 } := by
  unfold SameOperands
  decide

end Sys2Proof.Tests
end

section
/-! SUPPORT. What the lemmas under Laws/ leave to say of the decoder, the frame decoder and the steps, for
the statements about the block's state. -/

namespace Sys2Proof.Machine

/-! ### The decoder, op by op -/

/-- The op field has two bits: one of the four operations (30_encoding.md R66). -/
theorem op_cases (o : BitVec 2) : o = opHdrDecode ∨ o = opHdrEncode ∨ o = opCanDecode ∨ o = opDlcLen := by
  revert o
  decide

theorem decode_hdrDecode {r : Request} (ho : r.op = opHdrDecode) : decode r = .ok (.hdrDecode r.hdrWord) := by
  simp [decode, ho]

theorem decode_hdrEncode {r : Request} (ho : r.op = opHdrEncode) :
    decode r = .ok (.hdrEncode r.priority r.source r.destination r.destPort r.sourcePort r.reserved r.flags) := by
  simp [decode, ho, opHdrEncode, opHdrDecode]

theorem decode_dlcLen {r : Request} (ho : r.op = opDlcLen) : decode r = .ok (.dlcLen r.dlc) := by
  simp [decode, ho, opDlcLen, opCanDecode, opHdrEncode, opHdrDecode]

/-- A CAN.DECODE request is decoded by its buffer alone. -/
theorem decode_eq_decode_bufferRequest {r : Request} (ho : r.op = opCanDecode) :
    decode r = decode (bufferRequest r.frameBuf) := by
  simp [decode, ho, bufferRequest, blankRequest, opCanDecode, opHdrEncode, opHdrDecode, Request.frameBuf]

/-- A request is carried when its buffer is, if its op reads the buffer. -/
theorem carried_of_presentable {r : Request} (hp : r.op = opCanDecode → presentable r.frameBuf = true) :
    carried r = true := by
  refine carried_iff.2 ?_
  rcases op_cases r.op with ho | ho | ho | ho
  · exact ⟨_, decode_hdrDecode ho⟩
  · exact ⟨_, decode_hdrEncode ho⟩
  · exact ⟨_, decode_canDecode ho (hp ho)⟩
  · exact ⟨_, decode_dlcLen ho⟩

/-- A table word with an instruction stands for a request that decodes to it. -/
theorem decodeTableWord_eq_some {nbits w : Nat} {i : Instr} (h : decodeTableWord nbits w = some i) :
    ∃ r, tableRequest nbits w = some r ∧ decode r = .ok i := by
  unfold decodeTableWord at h
  split at h
  next r hr =>
    split at h
    next j hj => exact ⟨r, hr, by simpa [hj] using h⟩
    next => cases h
  next => cases h

/-! ### What a response says -/

/-- The frame that the Host reads of an OK CAN.DECODE is the decoded one: the free entries of the data port are past its
length. -/
theorem frameResponse_answer {tag : Byte} {F : BitVec 16} {W : Word} {d : Byte} {len : BitVec 7} {data : List Byte}
    {draw : Nat} (hd : data.length = len.toNat) (h64 : len.toNat ≤ 64) :
    (frameResponse tag F W d len data draw).answer = .frame
      { frameType := tag, errorState := errorStateOf F, bitRateSwitch := bitRateSwitchOf F,
        extendedDataLength := extendedDataLengthOf F, isExtendedId := isExtendedIdOf W,
        isRemoteRequest := isRemoteRequestOf W, canId := canIdOf W, dlc := d, data := data } := by
  have hdata : (dataPort data draw).toList.take len.toNat = data := by
    rw [← hd]
    exact dataPort_take (by omega)
  simp [Response.answer, Response.frame, frameResponse, hdata]

/-! ### The instructions answer -/

/-- A buffer's instruction is CAN.DECODE of the buffer, whichever row it has (41_can_gateway.md R101). -/
theorem exec_decodeBuffer (b : FrameBuf) (s : State) : exec (decodeBuffer b) s = execCanDecode b s := by
  rcases decodeBuffer_cases b with ⟨-, hd⟩ | ⟨f, tag, -, rfl, ⟨rfl, hd⟩ | ⟨rfl, hd⟩ | ⟨rfl, hd⟩ | ⟨rfl, hd⟩⟩ <;> rw [hd]
  · rfl
  all_goals exact decodeFrame_eq_execCanDecode (by decide) f s

/-- Steps 3 to 8 of R106 answer on every presentable buffer: no read is out of range (20_memory.md R45). -/
theorem decodeTagged_answers {b : FrameBuf} {s : State} (hp : presentable b = true)
    (hrom : s.dlcTable = dlcTable) (tag : Byte) : ∃ t, decodeTagged tag b s = .next t := by
  by_cases h28 : b.len.toNat < 28
  · exact ⟨_, decodeTagged_short h28⟩
  · have h28 : 28 ≤ b.len.toNat := by omega
    cases hl : dlcLookup s.dlcTable (dlcOf s.cfg (heldByte b 21)) with
    | none => exact ⟨_, decodeTagged_invalid hp h28 (dlcLookup_eq_none.1 hl)⟩
    | some len =>
      by_cases hn : b.len.toNat < 28 + len.toNat
      · exact ⟨_, decodeTagged_cut hp h28 hl hn⟩
      · exact ⟨_, decodeTagged_ok hp hl (dlcLookup_le (hrom ▸ hl)) (by omega)⟩

theorem execCanDecode_answers {b : FrameBuf} {s : State} (hp : presentable b = true) (hrom : s.dlcTable = dlcTable) :
    ∃ t, execCanDecode b s = .next t := by
  by_cases h4 : b.len.toNat < 4
  · exact ⟨s.respond (undriven .canDecode .truncated s.draws), by simp [execCanDecode, h4, raiseStatus]⟩
  · rw [execCanDecode_of_presentable hp (by omega)]
    split
    · exact decodeTagged_answers hp hrom _
    · exact ⟨_, rfl⟩

theorem execDlcLen_answers (d : Byte) (s : State) : ∃ t, execDlcLen d s = .next t := by
  unfold execDlcLen
  split <;> exact ⟨_, rfl⟩

/-- What a carried request decodes to answers in every state with the spec's table. -/
theorem exec_answers_of_decode {r : Request} {i : Instr} {s : State} (hd : decode r = .ok i)
    (hrom : s.dlcTable = dlcTable) : ∃ t, exec i s = .next t := by
  rcases decode_cases hd with ⟨-, rfl⟩ | ⟨-, rfl⟩ | ⟨-, hp, rfl⟩ | ⟨-, rfl⟩
  · exact ⟨_, rfl⟩
  · exact ⟨_, rfl⟩
  · rw [exec_decodeBuffer]
    exact execCanDecode_answers hp hrom
  · exact execDlcLen_answers _ _

/-! ### Steps -/

/-- BlockRespond of a request that decodes runs its instruction. -/
theorem step_pending_decoded {s : State} {r : Request} {i : Instr} (hp : s.pending = some r)
    (hn : s.inputs.head? ≠ some .reset) (hd : decode r = .ok i) : step s = exec i s := by
  rw [step_pending hp hn]
  simp [blockRespond, hd]

/-- With nothing pending and an issue first a step is HostIssue. -/
theorem step_issue {s : State} {r : Request} {rest : List HostAction} (hp : s.pending = none)
    (hi : s.inputs = .issue r :: rest) : step s = hostIssue r s := by
  rw [step_idle hp]
  simp [hostMove, hi]

/-! ### Legal responses -/

/-- Every outcome of the frame decoder with a recognized tag is legal. -/
theorem FrameOutcome.legal {tag : Byte} {s : State} {r : Response} (h : FrameOutcome tag s r)
    (ht : recognized tag = true) (hrom : s.dlcTable = dlcTable) : r.Legal s.cfg := by
  rcases h with ⟨e, he, rfl⟩ | ⟨F, W, b21, len, data, rfl, hl, -⟩
  · rcases he with rfl | ⟨rfl, hm⟩
    · simp [Response.Legal]
    · simp [Response.Legal, hm]
  · rw [hrom] at hl
    exact ⟨fun _ => ⟨ht, hl⟩, fun _ => nofun⟩

theorem execCanDecode_legal {b : FrameBuf} {s t : State} (hrom : s.dlcTable = dlcTable)
    (h : execCanDecode b s = .next t) : ∃ r, t = s.respond r ∧ r.Legal s.cfg := by
  obtain ⟨r, ht, rfl | ⟨tag, htag, ho⟩⟩ := execCanDecode_eq_next h
  · exact ⟨_, ht, by simp [Response.Legal]⟩
  · exact ⟨r, ht, ho.legal htag hrom⟩

theorem decodeFrame_legal {tag : Byte} (htag : recognized tag = true) {f : GwFrame} {s t : State}
    (hrom : s.dlcTable = dlcTable) (h : decodeFrame tag f s = .next t) : ∃ r, t = s.respond r ∧ r.Legal s.cfg :=
  execCanDecode_legal hrom (decodeFrame_eq_execCanDecode htag f s ▸ h)

theorem execDlcLen_legal {d : Byte} {s t : State} (hrom : s.dlcTable = dlcTable) (h : execDlcLen d s = .next t) :
    ∃ r, t = s.respond r ∧ r.Legal s.cfg := by
  unfold execDlcLen at h
  split at h
  next => exact ⟨_, raiseStatus_eq_next.1 h, .inr rfl⟩
  next len hl =>
    rw [hrom] at hl
    obtain ⟨hd, rfl⟩ := dlcLookup_eq_some.1 hl
    exact ⟨_, finish_eq_next.1 h, .inl ⟨rfl, by simp⟩⟩

/-- Every instruction that answers in a state with the spec's table answers by a legal response. -/
theorem exec_legal {i : Instr} {s t : State} (hrom : s.dlcTable = dlcTable) (h : exec i s = .next t) :
    ∃ r, t = s.respond r ∧ r.Legal s.cfg := by
  cases i with
  | hdrDecode w => exact ⟨_, finish_eq_next.1 h, rfl⟩
  | hdrEncode p src dst dp sp rs fl => exact ⟨_, finish_eq_next.1 h, rfl⟩
  | canDecode b => exact execCanDecode_legal hrom h
  | dlcLen d => exact execDlcLen_legal hrom h
  | gwCan20 f => exact decodeFrame_legal (tag := tagCan20) (by decide) hrom h
  | gwCan20Crc f => exact decodeFrame_legal (tag := tagCan20Crc) (by decide) hrom h
  | gwCanfd f => exact decodeFrame_legal (tag := tagCanfd) (by decide) hrom h
  | gwCanfdCrc f => exact decodeFrame_legal (tag := tagCanfdCrc) (by decide) hrom h

/-! ### Each update keeps the legal states -/

theorem State.Inv.respond {s : State} (h : s.Inv) {r : Response} (hr : r.Legal s.cfg) : (s.respond r).Inv where
  rom := h.rom
  alone := .inl rfl
  pending _ hq := by simp at hq
  resp q hq := by
    obtain rfl : r = q := by simpa using hq
    exact hr

theorem State.Inv.popInput {s : State} (h : s.Inv) : s.popInput.Inv := ⟨h.rom, h.alone, h.pending, h.resp⟩

theorem State.Inv.accept {s : State} (h : s.Inv) {r : Request} (hr : carried r = true) : (s.accept r).Inv where
  rom := h.rom
  alone := .inr rfl
  pending q hq := by
    obtain rfl : r = q := by simpa using hq
    exact hr
  resp _ hq := by simp at hq

theorem State.Inv.resetBlock {s : State} (h : s.Inv) : s.resetBlock.Inv where
  rom := h.rom
  alone := .inl rfl
  pending _ hq := by simp at hq
  resp _ hq := by simp at hq

end Sys2Proof.Machine
end

section
/-! SUPPORT. Two states with one mode and the spec's table: what is pending, the last response, the queue and the free
draws do not show in what an instruction answers. -/

namespace Sys2Proof.Machine

/-- Whenever the first outcome is a next state so is the second, and the Host reads the same answer in both. -/
def AnswersAlike (o o' : StepOutcome) : Prop := ∀ t, o = .next t → ∃ t', o' = .next t' ∧ t'.answer = t.answer

/-- The two states agree in what an instruction may read of a state. -/
structure SameBlock (s s' : State) : Prop where
  cfg  : s.cfg = s'.cfg
  rom  : s.dlcTable = dlcTable
  rom' : s'.dlcTable = dlcTable

/-- A fault answers nothing. -/
theorem AnswersAlike.fault {f : Fault} {o : StepOutcome} : AnswersAlike (.fault f) o := by
  intro t h
  cases h

theorem AnswersAlike.finish {r r' : Response} {s s' : State} (h : r'.answer = r.answer) :
    AnswersAlike (finish r s) (finish r' s') := by
  intro t ht
  obtain rfl := finish_eq_next.1 ht
  exact ⟨_, rfl, by simp [State.answer, h]⟩

/-- An error shows the Host its status alone. -/
theorem AnswersAlike.raiseStatus {op : Op} {e : Status} (he : e ≠ .ok) {s s' : State} :
    AnswersAlike (raiseStatus op e s) (raiseStatus op e s') :=
  .finish (by rw [answer_of_error he, answer_of_error he, undriven_status, undriven_status])

theorem AnswersAlike.ite {c : Prop} [Decidable c] {o o' p p' : StepOutcome} (h : AnswersAlike o o')
    (h' : AnswersAlike p p') : AnswersAlike (if c then o else p) (if c then o' else p') := by
  split
  · exact h
  · exact h'

section
variable {s s' : State} (h : SameBlock s s')
include h

theorem SameBlock.decodeData (tag : Byte) (b : FrameBuf) (F : BitVec 16) (W : Word) (b21 : Byte) :
    AnswersAlike (decodeData tag b F W b21 s) (decodeData tag b F W b21 s') := by
  simp only [Machine.decodeData, h.rom, h.rom', h.cfg]
  cases hl : dlcLookup dlcTable (dlcOf s'.cfg b21) with
  | none => exact .raiseStatus (by decide)
  | some len =>
    refine .ite (.raiseStatus (by decide)) ?_
    cases hd : readSlice b Config.frameHdrBytes len.toNat with
    | none => exact .fault
    | some data =>
      have hlen := readSlice_length hd
      have h64 := dlcLookup_le hl
      exact .finish (by rw [frameResponse_answer hlen h64, frameResponse_answer hlen h64])

theorem SameBlock.decodeTagged (tag : Byte) (b : FrameBuf) :
    AnswersAlike (decodeTagged tag b s) (decodeTagged tag b s') := by
  unfold Machine.decodeTagged
  refine .ite (.raiseStatus (by decide)) ?_
  split
  · exact h.decodeData _ _ _ _ _
  · exact .fault

theorem SameBlock.decodeFrame (tag : Byte) (f : GwFrame) :
    AnswersAlike (decodeFrame tag f s) (decodeFrame tag f s') :=
  .ite (.raiseStatus (by decide)) (h.decodeTagged _ _)

theorem SameBlock.execCanDecode (b : FrameBuf) : AnswersAlike (execCanDecode b s) (execCanDecode b s') := by
  unfold Machine.execCanDecode
  refine .ite (.raiseStatus (by decide)) ?_
  split
  · exact .fault
  · exact .ite (.raiseStatus (by decide)) (h.decodeTagged _ _)

theorem SameBlock.execDlcLen (d : Byte) : AnswersAlike (execDlcLen d s) (execDlcLen d s') := by
  simp only [Machine.execDlcLen, h.rom, h.rom']
  split
  · exact .raiseStatus (by decide)
  · exact .finish rfl

/-- An instruction answers alike in two such states. -/
theorem SameBlock.exec (i : Instr) : AnswersAlike (exec i s) (exec i s') := by
  cases i with
  | hdrDecode w => exact .finish rfl
  | hdrEncode p src dst dp sp rs fl => exact .finish rfl
  | canDecode b => exact h.execCanDecode b
  | dlcLen d => exact h.execDlcLen d
  | gwCan20 f => exact h.decodeFrame tagCan20 f
  | gwCan20Crc f => exact h.decodeFrame tagCan20Crc f
  | gwCanfd f => exact h.decodeFrame tagCanfd f
  | gwCanfdCrc f => exact h.decodeFrame tagCanfdCrc f

end

end Sys2Proof.Machine
end

section
/-! PROOFS. The statements about the state of the block (10_state.md). -/

namespace Sys2Proof.Proofs

open Sys2Proof.Machine Sys2Proof.Claims

/-- A response leaves the rest of the state. -/
theorem respond_leavesRest (s : State) (r : Response) : LeavesRest s (s.respond r) := ⟨rfl, rfl, rfl, rfl, rfl⟩

/-- Settles O30: each of the updates that `step_cases` lists keeps the invariant, and `exec_legal` says that an
instruction's response is legal. -/
theorem everyStepKeepsTheLegalStates : Obligations.EveryStepKeepsTheLegalStates := by
  intro s t hs h
  rcases step_cases h with ⟨_, -, rfl⟩ | ⟨_, _, _, -, -, he, -⟩ |
    ⟨-, ⟨-, rfl⟩ | ⟨_, _, -, hc, rfl⟩ | ⟨_, -, rfl⟩⟩
  · exact hs.popInput.resetBlock
  · obtain ⟨r, rfl, hr⟩ := exec_legal hs.rom he
    exact hs.respond hr
  · exact hs
  · exact hs.popInput.accept hc
  · exact hs.popInput

/-- Settles O25: the instructions read nothing of a state but its mode and its table (`SameBlock.exec`). -/
theorem answerDependsOnRequestAndModeAlone : Obligations.AnswerDependsOnRequestAndModeAlone := by
  intro i s s' t hrom hrom' hcfg h
  have hsame : SameBlock s s' := ⟨hcfg, hrom, hrom'⟩
  exact hsame.exec i t h

/-- Settles O26: every instruction that answers does so by one response. -/
theorem everyInstructionLeavesTheRest : Obligations.EveryInstructionLeavesTheRest := by
  intro i s t h
  obtain ⟨r, rfl⟩ := exec_eq_respond h
  exact ⟨respond_leavesRest s r, r, rfl⟩

/-- Settles O29: none of the updates that `step_cases` lists writes the table or the mode. -/
theorem tableAndModeAreNeverWritten : Obligations.TableAndModeAreNeverWritten := by
  intro s t h
  rcases step_cases h with ⟨_, -, rfl⟩ | ⟨_, _, _, -, -, -, rfl⟩ |
    ⟨-, ⟨-, rfl⟩ | ⟨_, _, -, -, rfl⟩ | ⟨_, -, rfl⟩⟩ <;> exact ⟨rfl, rfl⟩

/-- Settles O35: each op's decoding is written with the ports of that op alone. -/
theorem onlyThePortsOfTheOpAreRead : Obligations.OnlyThePortsOfTheOpAreRead := by
  intro r q ⟨hop, hdec, henc, hcan, hdlc⟩
  rcases op_cases r.op with ho | ho | ho | ho
  · rw [decode_hdrDecode ho, decode_hdrDecode (hop ▸ ho), hdec ho]
  · obtain ⟨hp, hsrc, hdst, hdp, hsp, hrs, hfl⟩ := henc ho
    rw [decode_hdrEncode ho, decode_hdrEncode (hop ▸ ho), hp, hsrc, hdst, hdp, hsp, hrs, hfl]
  · obtain ⟨hlen, hbytes⟩ := hcan ho
    have hbuf : r.frameBuf = q.frameBuf := by rw [Request.frameBuf, Request.frameBuf, hlen, hbytes]
    have hoq : q.op = opCanDecode := hop ▸ ho
    rw [decode_eq_decode_bufferRequest ho, decode_eq_decode_bufferRequest hoq, hbuf]
  · rw [decode_dlcLen ho, decode_dlcLen (hop ▸ ho), hdlc ho]

/-- Settles O1: the fields of the reset state, and the sixteen lengths one by one. -/
theorem resetHoldsNoRequestAndNoResponse : Obligations.ResetHoldsNoRequestAndNoResponse := by
  have hlengths : dlcTable.toList.map BitVec.toNat = lengths := by decide
  exact ⟨fun m => ⟨rfl, rfl, rfl, hlengths⟩, rfl⟩

/-- Settles O2: the reset state holds R22's table, no request and no response. -/
theorem resetIsLegal : Obligations.ResetIsLegal := by
  intro m
  exact { rom := rfl, alone := .inl rfl, pending := by simp, resp := by simp }

/-- Settles O4: BlockRespond of a pending request; a placed table word is one, with the resets before it dropped. -/
theorem stepRunsTheDecodedInstruction : Obligations.StepRunsTheDecodedInstruction := by
  refine ⟨fun s r i hp hn hd => step_pending_decoded hp hn hd, fun s nbits w i h => ?_⟩
  obtain ⟨r, hr, hd⟩ := decodeTableWord_eq_some h
  have hplaced : s.withFetchWord nbits w = present r s := by simp [State.withFetchWord, hr]
  rw [hplaced]
  exact step_pending_decoded rfl (head_dropWhile_isReset s.inputs) hd

/-- Settles O6: the request is carried, so HostIssue accepts it. -/
theorem hostIssueTakesTheSnapshot : Obligations.HostIssueTakesTheSnapshot := by
  intro s r rest hp hi hbuf
  have hstep : step s = .next (s.popInput.accept r) := by
    rw [step_issue hp hi, hostIssue_of_carried (carried_of_presentable hbuf)]
  exact ⟨_, hstep, rfl, rfl, rfl, rfl, by simp [hi]⟩

/-- Settles O7: the decoder rejects the request, so HostIssue refuses it. -/
theorem unpresentableBufferIsRefused : Obligations.UnpresentableBufferIsRefused := by
  intro s r rest hp hi ho hbuf
  obtain ⟨e, he⟩ := decode_not_presentable ho hbuf
  exact ⟨e, by simp [step_issue hp hi, hostIssue, he]⟩

/-- Settles O8: the Host's move on an empty queue, and on a wait. -/
theorem idleStepsChangeNothing : Obligations.IdleStepsChangeNothing := by
  refine ⟨fun s hp hi => ?_, fun s rest hp hi => ?_⟩
  · simp [step_idle hp, hostMove, hi]
  · simp [step_idle hp, hostMove, hi, State.popInput]

/-- Settles O28: the pending request is carried, so its instruction answers, and a response leaves the queue. -/
theorem nextRequestWaitsForTheResponse : Obligations.NextRequestWaitsForTheResponse := by
  intro s r hrom hp hn hc
  obtain ⟨i, hd⟩ := carried_iff.1 hc
  obtain ⟨t, ht⟩ := exec_answers_of_decode hd hrom
  obtain ⟨q, rfl⟩ := exec_eq_respond ht
  exact ⟨s.respond q, q, (step_pending_decoded hp hn hd).trans ht, rfl, rfl, rfl⟩

end Sys2Proof.Proofs
end

section
/-! SUPPORT. A request served in two steps, buffers that agree on the bytes the decoder reads, and the header word on
the wire, for the statements of 20_memory.md. -/

namespace Sys2Proof.Machine

open Sys2Proof.Claims

/-! ### A request is served: HostIssue, then BlockRespond -/

/-- What an instruction answers in any state with the spec's table is what a fresh block of that mode answers. -/
theorem answerTo_eq_answer {r : Request} {i : Instr} {s t : State} (hrom : s.dlcTable = dlcTable)
    (hd : decode r = .ok i) (ht : exec i s = .next t) : answerTo s.cfg r = t.answer := by
  have hsame : SameBlock s (State.resetFor s.cfg) := ⟨rfl, hrom, rfl⟩
  obtain ⟨u, hu, hanswer⟩ := hsame.exec i t ht
  simp [answerTo, hd, hu, hanswer]

/-- A block of mode `m` with the spec's table that takes the next action of the queue `l` (10_state.md R32: nothing is
pending). -/
structure Ready (m : DlcFieldMode) (l : List HostAction) (s : State) : Prop where
  cfg     : s.cfg = m
  rom     : s.dlcTable = dlcTable
  pending : s.pending = none
  inputs  : s.inputs = l

/-- BlockRespond answers a pending request as a fresh block of the mode does. -/
theorem step_answers_pending {s : State} {r : Request} (hrom : s.dlcTable = dlcTable) (hp : s.pending = some r)
    (hn : NoResetNext s.inputs) (hc : carried r = true) :
    ∃ q, step s = .next (s.respond q) ∧ some q.answer = answerTo s.cfg r := by
  obtain ⟨i, hd⟩ := carried_iff.1 hc
  obtain ⟨t, ht⟩ := exec_answers_of_decode hd hrom
  obtain ⟨q, rfl⟩ := exec_eq_respond ht
  exact ⟨q, (step_pending_decoded hp hn hd).trans ht, (answerTo_eq_answer hrom hd ht).symm⟩

/-- Two steps of a ready block serve the request that stands first: HostIssue accepts it, BlockRespond answers it, and
the block is ready for the rest of the queue. -/
theorem Ready.serve {m : DlcFieldMode} {r : Request} {rest : List HostAction} {s : State}
    (h : Ready m (.issue r :: rest) s) (hn : NoResetNext rest) (hc : carried r = true) :
    ∃ t, Host.Core.run core 2 s = .next t ∧ Ready m rest t ∧ t.answer = answerTo m r ∧ t.answer ≠ none := by
  obtain ⟨rfl, hrom, hp, hi⟩ := h
  have hrest : (s.popInput.accept r).inputs = rest := by simp [hi]
  have hissue : step s = .next (s.popInput.accept r) := (step_issue hp hi).trans (hostIssue_of_carried hc s)
  obtain ⟨q, hrespond, hanswer⟩ := step_answers_pending (s := s.popInput.accept r) hrom rfl (hrest ▸ hn) hc
  have hrun : Host.Core.run core 2 s = .next ((s.popInput.accept r).respond q) :=
    (run_succ_of_step hissue).trans (run_succ_of_step hrespond)
  exact ⟨_, hrun, ⟨rfl, hrom, rfl, hrest⟩, hanswer, nofun⟩

/-- Issues put before a queue that does not begin with a reset keep it so. -/
theorem noResetNext_issues_append {rest : List HostAction} (h : NoResetNext rest) (rs : List Request) :
    NoResetNext (rs.map .issue ++ rest) := by
  cases rs with
  | nil => exact h
  | cons r rs => simp [NoResetNext]

/-- Two steps a request serve a list of requests in order, and the last of them is what is answered. -/
theorem Ready.serve_all {m : DlcFieldMode} (rs : List Request) {r : Request} {rest : List HostAction} {s : State}
    (h : Ready m ((rs ++ [r]).map .issue ++ rest) s) (hn : NoResetNext rest)
    (hc : ∀ q ∈ rs ++ [r], carried q = true) :
    ∃ t, Host.Core.run core (2 * (rs.length + 1)) s = .next t ∧ Ready m rest t ∧ t.answer = answerTo m r ∧
      t.answer ≠ none := by
  induction rs generalizing s with
  | nil => exact h.serve hn (hc r (by simp))
  | cons q rs ih =>
    obtain ⟨u, hu, hready, -⟩ := h.serve (noResetNext_issues_append hn _) (hc q (by simp))
    obtain ⟨t, ht, hserved⟩ := ih hready fun p hp => hc p (.tail q hp)
    refine ⟨t, ?_, hserved⟩
    rw [List.length_cons, Nat.mul_succ, Nat.add_comm, run_add hu, ht]

/-! ### Buffers that agree below 28 + LEN -/

/-- A held byte is its number. -/
theorem heldByte_eq_of_byteAt_eq {b c : FrameBuf} {i : Nat} (h : byteAt b i = byteAt c i) :
    heldByte b i = heldByte c i :=
  BitVec.eq_of_toNat_eq h

/-- A slice is made of the held bytes. -/
theorem slice_eq_of_heldByte_eq {b c : FrameBuf} {off k : Nat} (hb : off + k ≤ b.bytes.length)
    (hc : off + k ≤ c.bytes.length) (h : ∀ i, i < off + k → heldByte b i = heldByte c i) :
    (b.bytes.drop off).take k = (c.bytes.drop off).take k := by
  apply List.ext_getElem
  · simp; omega
  · intro i hi hi'
    have hik : i < k := by simp at hi; omega
    have hbyte := h (off + i) (by omega)
    simpa [heldByte, show off + i < b.bytes.length by omega, show off + i < c.bytes.length by omega] using hbyte

/-- The DLC that the model forms from byte 21 is the one of R103. -/
theorem dlcOf_heldByte_toNat (m : DlcFieldMode) (b : FrameBuf) : (dlcOf m (heldByte b 21)).toNat = dlcAt m b := by
  cases m with
  | lowNibble => exact dlcOf_lowNibble _
  | fullByte => rfl

/-- The entries of the table are the lengths of R22, said for `decide`. -/
theorem dlcTable_toNat_fin : ∀ j : Fin 16, (dlcTable[j.val]).toNat = lengths.getD j.val 0 := by decide

/-- A DLC of 0 to 15 has the length LEN. -/
theorem dlcLookup_heldByte {m : DlcFieldMode} {b : FrameBuf} (h : dlcAt m b ≤ 15) :
    ∃ len, dlcLookup dlcTable (dlcOf m (heldByte b 21)) = some len ∧ len.toNat = lenAt m b := by
  have hd := dlcOf_heldByte_toNat m b
  have h16 : (dlcOf m (heldByte b 21)).toNat < 16 := by omega
  refine ⟨_, dlcLookup_eq_some.2 ⟨h16, rfl⟩, ?_⟩
  rw [lenAt, ← hd]
  exact dlcTable_toNat_fin ⟨_, h16⟩

/-- CAN.DECODE of two buffers that reach their common 28 + LEN and agree below it is the same (20_memory.md R46). -/
theorem execCanDecode_eq_of_heldByte_eq {b c : FrameBuf} {s : State} (hb : presentable b = true)
    (hc : presentable c = true) (hrom : s.dlcTable = dlcTable) (hd : dlcAt s.cfg b ≤ 15)
    (hbn : 28 + lenAt s.cfg b ≤ b.len.toNat) (hcn : 28 + lenAt s.cfg b ≤ c.len.toNat)
    (h : ∀ i, i < 28 + lenAt s.cfg b → heldByte b i = heldByte c i) : execCanDecode b s = execCanDecode c s := by
  obtain ⟨len, hl, hlen⟩ := dlcLookup_heldByte hd
  have h64 := dlcLookup_le hl
  rw [← hrom] at hl
  rw [← hlen] at hbn hcn h
  have hbl := (presentable_iff.1 hb).1
  have hcl := (presentable_iff.1 hc).1
  have hdata : (b.bytes.drop 28).take len.toNat = (c.bytes.drop 28).take len.toNat :=
    slice_eq_of_heldByte_eq (by omega) (by omega) h
  have hlow : ∀ i, i < 28 → heldByte b i = heldByte c i := fun i hi => h i (by omega)
  have hl' : dlcLookup s.dlcTable (dlcOf s.cfg (heldByte c 21)) = some len := by rwa [← hlow 21 (by decide)]
  have htagged : decodeTagged (heldByte b 3) b s = decodeTagged (heldByte c 3) c s := by
    rw [decodeTagged_ok hb hl h64 hbn, decodeTagged_ok hc hl' h64 hcn, hdata]
    simp (disch := decide) only [hlow]
  rw [execCanDecode_of_presentable hb (by omega), execCanDecode_of_presentable hc (by omega), htagged,
    hlow 3 (by decide)]

/-! ### The header word on the wire -/

/-- The bytes of a word of four bytes are those bytes (20_memory.md R40). -/
theorem wireOfWord_bigEndian4 (b0 b1 b2 b3 : Byte) : wireOfWord (bigEndian4 b0 b1 b2 b3) = (b0, b1, b2, b3) := by
  have hbyte : ∀ (lo : Nat) (b : Byte), (bigEndian4 b0 b1 b2 b3).toNat / 2 ^ lo % 2 ^ 8 = b.toNat →
      (bigEndian4 b0 b1 b2 b3).extractLsb' lo 8 = b := fun lo b h =>
    BitVec.eq_of_toNat_eq ((slice_toNat lo 8 _).trans h)
  have hw := bigEndian4_toNat b0 b1 b2 b3
  rw [wireOfWord, hbyte 24 b0 (by omega), hbyte 16 b1 (by omega), hbyte 8 b2 (by omega), hbyte 0 b3 (by omega)]

end Sys2Proof.Machine
end

section
/-! PROOFS. The statements about requests in sequence, frame buffers and the wire (20_memory.md). -/

namespace Sys2Proof.Proofs

open Sys2Proof.Machine Sys2Proof.Claims

/-- An instruction that ends with this response responds as the response says. -/
theorem responds_of_finish {i : Instr} {s : State} {r : Response} {P : Response → Prop} (h : exec i s = finish r s)
    (hP : P r) : Responds i s P :=
  ⟨s.respond r, r, h, rfl, hP, respond_leavesRest s r⟩

/-- Two instructions with one effect in a state answer alike there. -/
theorem sameAnswer_of_exec_eq {i j : Instr} {s t : State} (hi : exec i s = .next t) (hj : exec j s = .next t) :
    SameAnswer i j s := by
  obtain ⟨r, rfl⟩ := exec_eq_respond hi
  exact ⟨_, _, hi, hj, rfl, nofun, respond_leavesRest s r, respond_leavesRest s r⟩

/-- Settles O32, by induction on the requests before the last one (`Ready.serve_all`). -/
theorem requestsAreServedInOrder : Obligations.RequestsAreServedInOrder := by
  intro s rs r rest hs hp hi hn hc
  have hready : Ready s.cfg ((rs ++ [r]).map .issue ++ rest) s := ⟨rfl, hs.rom, hp, hi⟩
  obtain ⟨t, ht, ready, hanswer⟩ := hready.serve_all rs hn hc
  exact ⟨t, ht, ready.pending, ready.inputs, hanswer⟩

/-- Settles O24: the decoder reads no byte at 28 + LEN or past it, so the two buffers have one effect. -/
theorem trailingBytesAreIgnored : Obligations.TrailingBytesAreIgnored := by
  intro b c s hb hc hrom hd hlen hle hbytes
  have heq : execCanDecode b s = execCanDecode c s :=
    execCanDecode_eq_of_heldByte_eq hb hc hrom hd hlen.ge (hlen ▸ hle) fun i hi =>
      heldByte_eq_of_byteAt_eq (hbytes i (hlen ▸ hi))
  obtain ⟨t, ht⟩ := execCanDecode_answers hb hrom
  exact sameAnswer_of_exec_eq (i := .canDecode b) (j := .canDecode c) ht (heq.symm.trans ht)

/-- Settles O13: the word's bytes as its base-256 digits, and R82's fields as quotients of them. -/
theorem headerTravelsBigEndian : Obligations.HeaderTravelsBigEndian := by
  refine ⟨fun b0 b1 b2 b3 => ⟨bigEndian4_toNat b0 b1 b2 b3, wireOfWord_bigEndian4 b0 b1 b2 b3⟩,
    fun b0 b1 b2 b3 s => responds_of_finish rfl ?_⟩
  have hw := bigEndian4_toNat b0 b1 b2 b3
  simp only [headerOfWord, slice_toNat]
  refine ⟨?_, ?_, ?_, ?_, ?_⟩ <;> omega

end Sys2Proof.Proofs
end

section
/-! SUPPORT. Well-formedness as what the operand ports can carry, and the encoder undone by the decoder and back. -/

namespace Sys2Proof.Machine

open Sys2Proof.Laws.Carried

/-! ### Well-formed instructions -/

/-- The checks on a buffer are the checks of the ports (10_state.md R24). -/
theorem frameBuf_check_eq_none_iff {b : FrameBuf} : b.check = none ↔ presentable b = true := by
  refine ⟨presentable_of_check, fun h => ?_⟩
  simp only [presentable, Bool.and_eq_true] at h
  simp [FrameBuf.check, h]

/-- A gateway frame passes its checks when it reaches its tag and the ports carry it, whatever the tag. -/
theorem gwFrame_check_eq_none_iff {f : GwFrame} (tag : Byte) :
    f.check = none ↔ 4 ≤ f.len.toNat ∧ presentable (f.buf tag) = true := by
  have hzero : presentable (f.buf 0) = true ↔ presentable (f.buf tag) = true := by simp [presentable_iff, GwFrame.buf]
  by_cases h4 : f.len.toNat < 4
  · simp [GwFrame.check, h4, Nat.not_le.2 h4]
  · rw [GwFrame.check, if_neg h4, frameBuf_check_eq_none_iff, hzero]
    simp [Nat.not_lt.1 h4]

/-- A plain CAN.DECODE is well formed when the ports carry its buffer and no row has its tag (log 1). -/
theorem wf_canDecode_iff {b : FrameBuf} :
    (Instr.canDecode b).wf = true ↔ hasRecognizedTag b = false ∧ presentable b = true := by
  rw [← frameBuf_check_eq_none_iff]
  cases h : hasRecognizedTag b <;> simp [Instr.wf, Instr.check, h]

/-- A buffer that the ports carry has a well-formed instruction. -/
theorem decodeBuffer_wf {b : FrameBuf} (hp : presentable b = true) : (decodeBuffer b).wf = true := by
  rcases decodeBuffer_cases b with ⟨hu, hd⟩ | ⟨f, tag, h4, rfl, hrow⟩
  · rw [hd]
    exact wf_canDecode_iff.2 ⟨hu, hp⟩
  · have hf : f.check.isNone = true := by simp [(gwFrame_check_eq_none_iff tag).2 ⟨h4, hp⟩]
    rcases hrow with ⟨-, hd⟩ | ⟨-, hd⟩ | ⟨-, hd⟩ | ⟨-, hd⟩ <;> rw [hd] <;> exact hf

/-- What a request decodes to is well formed. -/
theorem wf_of_decode {r : Request} {i : Instr} (hd : decode r = .ok i) : i.wf = true := by
  rcases decode_cases hd with ⟨-, rfl⟩ | ⟨-, rfl⟩ | ⟨-, hp, rfl⟩ | ⟨-, rfl⟩
  · rfl
  · rfl
  · exact decodeBuffer_wf hp
  · rfl

/-! ### The encoder and the decoder -/

/-- The request of a well-formed gateway frame decodes by the frame's tag. -/
theorem decode_bufferRequest_frame {f : GwFrame} (tag : Byte) (h : f.check.isNone = true) :
    decode (bufferRequest (f.buf tag)) = .ok (
      if tag = tagCan20 then .gwCan20 f else if tag = tagCan20Crc then .gwCan20Crc f
      else if tag = tagCanfd then .gwCanfd f else if tag = tagCanfdCrc then .gwCanfdCrc f
      else .canDecode (f.buf tag)) := by
  obtain ⟨h4, hp⟩ := (gwFrame_check_eq_none_iff tag).1 (by simpa using h)
  rw [decode_bufferRequest hp, decodeBuffer_frame f tag h4]

/-- The encoding of a buffer's instruction is the buffer's request, whichever row it has. -/
theorem encode_decodeBuffer (b : FrameBuf) : encode (decodeBuffer b) = bufferRequest b := by
  rcases decodeBuffer_cases b with ⟨-, hd⟩ | ⟨f, tag, -, rfl, ⟨rfl, hd⟩ | ⟨rfl, hd⟩ | ⟨rfl, hd⟩ | ⟨rfl, hd⟩⟩ <;>
    rw [hd] <;> rfl

/-- A request decodes when the ports carry its buffer, if its op reads the buffer, and in no other case. -/
theorem carried_iff_presentable {r : Request} :
    carried r = true ↔ (r.op = opCanDecode → presentable r.frameBuf = true) := by
  refine ⟨fun hc ho => ?_, carried_of_presentable⟩
  by_contra hp
  obtain ⟨i, hi⟩ := carried_iff.1 hc
  obtain ⟨e, he⟩ := decode_not_presentable ho (by simpa using hp)
  simp [he] at hi

end Sys2Proof.Machine
end

section
/-! PROOFS. The statements about the encoding of requests (30_encoding.md). -/

namespace Sys2Proof.Proofs

open Sys2Proof.Machine Sys2Proof.Claims

/-- Settles O33, constructor by constructor: the header operations and DLC.LEN by their op, a plain CAN.DECODE because no
row has its tag, and a gateway row by its tag. -/
theorem decodeOfEncodeIsTheInstruction : Obligations.DecodeOfEncodeIsTheInstruction := by
  intro i h
  cases i with
  | hdrDecode w => exact decode_hdrDecode rfl
  | hdrEncode p src dst dp sp rs fl => exact decode_hdrEncode rfl
  | canDecode b =>
    obtain ⟨hu, hp⟩ := wf_canDecode_iff.1 h
    rw [encode, decode_bufferRequest hp, decodeBuffer_untagged hu]
  | dlcLen d => exact decode_dlcLen rfl
  | gwCan20 f => exact decode_bufferRequest_frame tagCan20 h
  | gwCan20Crc f => exact decode_bufferRequest_frame tagCan20Crc h
  | gwCanfd f => exact decode_bufferRequest_frame tagCanfd h
  | gwCanfdCrc f => exact decode_bufferRequest_frame tagCanfdCrc h

/-- Settles O27: a decoded buffer is presentable, and `decodeTagged` reads only the bytes that such a buffer holds. -/
theorem everyCarriedRequestAnswers : Obligations.EveryCarriedRequestAnswers :=
  ⟨fun _ => carried_iff_presentable.symm.trans carried_iff,
    fun _ _ _ hrom hd => ⟨wf_of_decode hd, exec_answers_of_decode hd hrom⟩⟩

/-- Settles O34, op by op: the encoder drives each port that the op reads with the operand the decoder took from it. -/
theorem encodeOfDecodeKeepsTheOperands : Obligations.EncodeOfDecodeKeepsTheOperands := by
  intro r i h
  rcases decode_cases h with ⟨ho, rfl⟩ | ⟨ho, rfl⟩ | ⟨ho, -, rfl⟩ | ⟨ho, rfl⟩
  · simp [SameOperands, encode, blankRequest, ho, opHdrDecode]
  · simp [SameOperands, encode, blankRequest, ho, opHdrEncode]
  · rw [encode_decodeBuffer]
    simp [SameOperands, bufferRequest, blankRequest, Request.frameBuf, ho, opCanDecode]
  · simp [SameOperands, encode, blankRequest, ho, opDlcLen]

/-- Settles O3: each op's decoding, and for CAN.DECODE the tags 0x7F and 0x91. -/
theorem sampleRequestsDecode : Obligations.SampleRequestsDecode :=
  ⟨decode_hdrDecode rfl, decode_hdrEncode rfl, decode_canDecode rfl rfl, decode_canDecode rfl rfl, decode_dlcLen rfl⟩

end Sys2Proof.Proofs
end

section
/-! SUPPORT. The header word as its seven fields side by side (40_header_codec.md R81), and packing and slicing undone by
each other. -/

namespace Sys2Proof.Machine

/-- The fields are adjacent and fill the word: packing them is appending the masked operands, priority first. -/
theorem wordOfFields_eq_append (p src dst dp sp rs fl : Word) :
    wordOfFields p src dst dp sp rs fl =
      p.setWidth 2 ++ src.setWidth 5 ++ dst.setWidth 5 ++ dp.setWidth 6 ++ sp.setWidth 6 ++ rs.setWidth 4 ++
        fl.setWidth 4 := by
  apply BitVec.eq_of_toNat_eq
  simp only [wordOfFields, BitVec.toNat_or, BitVec.toNat_append, BitVec.toNat_setWidth]
  rw [packField_toNat (by decide), packField_toNat (by decide), packField_toNat (by decide),
    packField_toNat (by decide), packField_toNat (by decide), packField_toNat (by decide), packField_toNat (by decide)]
  simp only [Nat.shiftLeft_or_distrib, ← Nat.shiftLeft_add, Nat.shiftLeft_zero, Nat.reduceAdd]

/-- The packed word as a number: each field is below the place of the next one, so the or is a sum (R83). -/
theorem wordOfFields_toNat (p src dst dp sp rs fl : Word) :
    (wordOfFields p src dst dp sp rs fl).toNat =
      p.toNat % 4 * 2 ^ 30 + src.toNat % 32 * 2 ^ 25 + dst.toNat % 32 * 2 ^ 20 + dp.toNat % 64 * 2 ^ 14 +
        sp.toNat % 64 * 2 ^ 8 + rs.toNat % 16 * 2 ^ 4 + fl.toNat % 16 := by
  simp only [wordOfFields_eq_append, BitVec.toNat_append, shiftLeft_or_eq_add (BitVec.isLt _)]
  simp only [BitVec.toNat_setWidth]
  omega

/-- Slicing the packed word gives the masked operands (R85). -/
theorem headerOfWord_wordOfFields (p src dst dp sp rs fl : Word) :
    headerOfWord (wordOfFields p src dst dp sp rs fl) =
      { priority := p.setWidth 2, source := src.setWidth 5, destination := dst.setWidth 5, destPort := dp.setWidth 6,
        sourcePort := sp.setWidth 6, reserved := rs.setWidth 4, flags := fl.setWidth 4 } := by
  have hw := wordOfFields_toNat p src dst dp sp rs fl
  simp only [headerOfWord, AddressHeader.mk.injEq, ← BitVec.toNat_inj, slice_toNat, BitVec.toNat_setWidth]
  refine ⟨?_, ?_, ?_, ?_, ?_, ?_, ?_⟩ <;> omega

/-- Packing the slices of a word gives the word: adjacent slices side by side are one longer slice (R84). -/
theorem wordOfFields_headerOfWord (w : Word) :
    wordOfFields ((headerOfWord w).priority.setWidth 32) ((headerOfWord w).source.setWidth 32)
      ((headerOfWord w).destination.setWidth 32) ((headerOfWord w).destPort.setWidth 32)
      ((headerOfWord w).sourcePort.setWidth 32) ((headerOfWord w).reserved.setWidth 32)
      ((headerOfWord w).flags.setWidth 32) = w := by
  simp (disch := decide) only [wordOfFields_eq_append, BitVec.setWidth_setWidth_of_le, BitVec.setWidth_eq]
  simp (disch := decide) only [headerOfWord, slice, BitVec.extractLsb'_append_extractLsb'_eq_extractLsb']
  exact BitVec.extractLsb'_eq_self

end Sys2Proof.Machine
end

section
/-! PROOFS. The statements about the header codec (40_header_codec.md). -/

namespace Sys2Proof.Proofs

open Sys2Proof.Machine Sys2Proof.Claims

/-- Settles O10: the packed word as a sum (`wordOfFields_toNat`). -/
theorem hdrEncodePacksTheMaskedOperands : Obligations.HdrEncodePacksTheMaskedOperands :=
  ⟨fun _ => decode_hdrEncode, fun p src dst dp sp rs fl _ =>
    responds_of_finish rfl ⟨rfl, rfl, wordOfFields_toNat p src dst dp sp rs fl⟩⟩

/-- Settles O11: HDR.ENCODE packs the slices that HDR.DECODE answered (`wordOfFields_headerOfWord`). -/
theorem encodeOfDecodeIsTheWord : Obligations.EncodeOfDecodeIsTheWord :=
  fun w _ => ⟨_, _, _, _, rfl, rfl, rfl, rfl, rfl, wordOfFields_headerOfWord w⟩

/-- Settles O12: HDR.DECODE slices the word that HDR.ENCODE packed (`headerOfWord_wordOfFields`), and a mask leaves an
operand in range as it is. -/
theorem decodeOfEncodeIsTheMaskedOperands : Obligations.DecodeOfEncodeIsTheMaskedOperands := by
  intro p src dst dp sp rs fl s
  refine ⟨_, _, _, _, rfl, rfl, rfl, rfl, rfl, ?_⟩
  have hfields := headerOfWord_wordOfFields p src dst dp sp rs fl
  simp only [hfields]
  refine ⟨?_, fun hp hsrc hdst hdp hsp hrs hfl => ?_⟩
  · simp only [BitVec.toNat_setWidth, Nat.reducePow, and_self]
  · exact ⟨BitVec.setWidth_setWidth_eq_self hp, BitVec.setWidth_setWidth_eq_self hsrc,
      BitVec.setWidth_setWidth_eq_self hdst, BitVec.setWidth_setWidth_eq_self hdp,
      BitVec.setWidth_setWidth_eq_self hsp, BitVec.setWidth_setWidth_eq_self hrs,
      BitVec.setWidth_setWidth_eq_self hfl⟩

/-- Settles O9: each field as a quotient of the word (`slice_toNat`); the priority ends at the word's top bit and needs
no remainder. -/
theorem hdrDecodeGivesTheSevenFields : Obligations.HdrDecodeGivesTheSevenFields := by
  refine ⟨fun _ => decode_hdrDecode, fun w s => responds_of_finish rfl ⟨rfl, rfl, ?_⟩⟩
  have hw := w.isLt
  simp only [headerOfWord, slice_toNat]
  refine ⟨?_, ?_, ?_, ?_, ?_, ?_, ?_⟩ <;> omega

end Sys2Proof.Proofs
end

section
/-! SUPPORT. CAN.DECODE check by check (41_can_gateway.md R106), with the frame's bytes and lengths as the statements
say them, and what a gateway row's tag does to it. -/

namespace Sys2Proof.Machine

open Sys2Proof.Claims

/-! ### The status flags and the CAN-ID word from their bytes (R104, R105) -/

theorem errorStateOf_bigEndian2 (b0 b1 : Byte) :
    errorStateOf (bigEndian2 b0 b1) = decide (b1.toNat / 64 % 2 = 1) := by
  rw [errorStateOf_eq, bigEndian2_toNat, decide_eq_decide]
  omega

theorem bitRateSwitchOf_bigEndian2 (b0 b1 : Byte) :
    bitRateSwitchOf (bigEndian2 b0 b1) = decide (b1.toNat / 32 % 2 = 1) := by
  rw [bitRateSwitchOf_eq, bigEndian2_toNat, decide_eq_decide]
  omega

theorem extendedDataLengthOf_bigEndian2 (b0 b1 : Byte) :
    extendedDataLengthOf (bigEndian2 b0 b1) = decide (b1.toNat / 16 % 2 = 1) := by
  rw [extendedDataLengthOf_eq, bigEndian2_toNat, decide_eq_decide]
  omega

theorem isExtendedIdOf_bigEndian4 (b0 b1 b2 b3 : Byte) :
    isExtendedIdOf (bigEndian4 b0 b1 b2 b3) = decide (b0.toNat / 128 = 1) := by
  rw [isExtendedIdOf_eq, bigEndian4_toNat, decide_eq_decide]
  omega

theorem isRemoteRequestOf_bigEndian4 (b0 b1 b2 b3 : Byte) :
    isRemoteRequestOf (bigEndian4 b0 b1 b2 b3) = decide (b0.toNat / 64 % 2 = 1) := by
  rw [isRemoteRequestOf_eq, bigEndian4_toNat, decide_eq_decide]
  omega

theorem canIdOf_bigEndian4_toNat (b0 b1 b2 b3 : Byte) :
    (canIdOf (bigEndian4 b0 b1 b2 b3)).toNat =
      b0.toNat % 64 * 2 ^ 24 + b1.toNat * 2 ^ 16 + b2.toNat * 2 ^ 8 + b3.toNat := by
  rw [canIdOf_toNat, bigEndian4_toNat]
  omega

/-! ### The tag, the length and the data -/

/-- The four tags of R65 are the recognized ones. -/
theorem recognized_heldByte_iff {b : FrameBuf} : recognized (heldByte b 3) = true ↔ Tagged b := by
  simp only [recognized, Bool.or_eq_true, beq_iff_eq, ← BitVec.toNat_inj, or_assoc]
  rfl

/-- A DLC of 0 to 15 looks up its length of R22. -/
theorem dlcLookup_dlcTable {d : Byte} (h : d.toNat ≤ 15) :
    ∃ len, dlcLookup dlcTable d = some len ∧ len.toNat = lengths.getD d.toNat 0 :=
  ⟨_, dlcLookup_eq_some.2 ⟨by omega, rfl⟩, dlcTable_toNat_fin ⟨d.toNat, by omega⟩⟩

/-- LEN fits the data port. -/
theorem lenAt_le {m : DlcFieldMode} {b : FrameBuf} (h : dlcAt m b ≤ 15) : lenAt m b ≤ 64 := by
  obtain ⟨len, hl, hlen⟩ := dlcLookup_heldByte h
  exact hlen ▸ dlcLookup_le hl

/-- A held byte as the statements say it. -/
theorem heldByte_toNat (b : FrameBuf) (i : Nat) : (heldByte b i).toNat = byteAt b i := rfl

/-- The `k` held bytes from `off` on. -/
def heldBytes (b : FrameBuf) (off k : Nat) : List Byte := (List.range k).map fun i => heldByte b (off + i)

@[simp] theorem heldBytes_length (b : FrameBuf) (off k : Nat) : (heldBytes b off k).length = k := by simp [heldBytes]

/-- A slice of bytes that are there is the held bytes at its offsets. -/
theorem slice_eq_heldBytes {b : FrameBuf} {off k : Nat} (h : off + k ≤ b.bytes.length) :
    (b.bytes.drop off).take k = heldBytes b off k := by
  apply List.ext_getElem
  · simp; omega
  · intro i hi hi'
    have hik : i < k := by simpa using hi'
    simp [heldBytes, heldByte, show off + i < b.bytes.length by omega]

theorem heldBytes_congr {b c : FrameBuf} {off k : Nat} (h : ∀ i < k, heldByte b (off + i) = heldByte c (off + i)) :
    heldBytes b off k = heldBytes c off k :=
  List.map_congr_left fun i hi => h i (List.mem_range.1 hi)

/-! ### The response with a buffer's frame -/

/-- The OK response of CAN.DECODE that carries the frame of a buffer (R106 step 8). -/
def bufferResponse (m : DlcFieldMode) (b : FrameBuf) (draw : Nat) : Response :=
  frameResponse (heldByte b 3) (bigEndian2 (heldByte b 22) (heldByte b 23))
    (bigEndian4 (heldByte b 24) (heldByte b 25) (heldByte b 26) (heldByte b 27)) (dlcOf m (heldByte b 21))
    (BitVec.ofNat 7 (lenAt m b)) (heldBytes b 28 (lenAt m b)) draw

theorem ofNat_lenAt_toNat {m : DlcFieldMode} {b : FrameBuf} (h : dlcAt m b ≤ 15) :
    (BitVec.ofNat 7 (lenAt m b)).toNat = lenAt m b := by
  have := lenAt_le h
  rw [BitVec.toNat_ofNat]
  omega

theorem bufferResponse_carriesFrame {m : DlcFieldMode} {b : FrameBuf} (h : dlcAt m b ≤ 15) (draw : Nat) :
    CarriesFrame m b (bufferResponse m b draw) := by
  refine ⟨rfl, rfl, rfl, errorStateOf_bigEndian2 _ _, bitRateSwitchOf_bigEndian2 _ _,
    extendedDataLengthOf_bigEndian2 _ _, isExtendedIdOf_bigEndian4 _ _ _ _, isRemoteRequestOf_bigEndian4 _ _ _ _,
    canIdOf_bigEndian4_toNat _ _ _ _, dlcOf_heldByte_toNat m b, ofNat_lenAt_toNat h, fun i hi hlen => ?_⟩
  have hdata : (bufferResponse m b draw).data[i] = (heldBytes b 28 (lenAt m b))[i]'(by simpa using hlen) :=
    dataPort_getElem _ hi
  rw [hdata]
  simp [heldBytes, heldByte_toNat]

/-- Buffers that agree in the bits that R106 interprets carry one frame. -/
theorem bufferResponse_answer_congr {m : DlcFieldMode} {b c : FrameBuf} (h : dlcAt m b ≤ 15)
    (htag : byteAt b 3 = byteAt c 3) (hdlc : dlcAt m b = dlcAt m c)
    (hflags : byteAt b 23 / 16 % 8 = byteAt c 23 / 16 % 8)
    (hbytes : ∀ i, 24 ≤ i → i < 28 + lenAt m b → byteAt b i = byteAt c i) (draw : Nat) :
    (bufferResponse m b draw).answer = (bufferResponse m c draw).answer := by
  have hlen : lenAt m b = lenAt m c := by rw [lenAt, lenAt, hdlc]
  have hheld : ∀ i, 24 ≤ i → i < 28 + lenAt m b → heldByte b i = heldByte c i := fun i h24 hi =>
    heldByte_eq_of_byteAt_eq (hbytes i h24 hi)
  have hd : dlcOf m (heldByte b 21) = dlcOf m (heldByte c 21) :=
    BitVec.eq_of_toNat_eq (by rw [dlcOf_heldByte_toNat, dlcOf_heldByte_toNat, hdlc])
  have hdata : heldBytes b 28 (lenAt m b) = heldBytes c 28 (lenAt m b) :=
    heldBytes_congr fun i hi => hheld _ (by omega) (by omega)
  have h64 := (ofNat_lenAt_toNat h).trans_le (lenAt_le h)
  have hl : ∀ e : FrameBuf, (heldBytes e 28 (lenAt m b)).length = (BitVec.ofNat 7 (lenAt m b)).toNat := fun e =>
    (heldBytes_length _ _ _).trans (ofNat_lenAt_toNat h).symm
  simp only [bufferResponse, ← hlen]
  rw [frameResponse_answer (hl b) h64, frameResponse_answer (hl c) h64, heldByte_eq_of_byteAt_eq htag, hd, hdata,
    hheld 24 (by omega) (by omega), hheld 25 (by omega) (by omega), hheld 26 (by omega) (by omega),
    hheld 27 (by omega) (by omega)]
  simp only [errorStateOf_bigEndian2, bitRateSwitchOf_bigEndian2, extendedDataLengthOf_bigEndian2, Answer.frame.injEq,
    CanFrame.mk.injEq, decide_eq_decide, true_and, and_true]
  simp only [heldByte_toNat]
  omega

/-! ### CAN.DECODE check by check -/

/-- Step 1 of R106. -/
theorem execCanDecode_short {b : FrameBuf} {s : State} (h : b.len.toNat < 4) :
    execCanDecode b s = raiseStatus .canDecode .truncated s := by
  simp [execCanDecode, h]

/-- Step 2 of R106. -/
theorem execCanDecode_untagged {b : FrameBuf} {s : State} (hp : presentable b = true) (h4 : 4 ≤ b.len.toNat)
    (ht : ¬Tagged b) : execCanDecode b s = raiseStatus .canDecode .unknownFrameType s := by
  rw [execCanDecode_of_presentable hp h4, if_neg (mt recognized_heldByte_iff.1 ht)]

theorem execCanDecode_tagged {b : FrameBuf} {s : State} (hp : presentable b = true) (h4 : 4 ≤ b.len.toNat)
    (ht : Tagged b) : execCanDecode b s = decodeTagged (heldByte b 3) b s := by
  rw [execCanDecode_of_presentable hp h4, if_pos (recognized_heldByte_iff.2 ht)]

/-- Steps 3 to 7 of R106: the first check that fails. -/
theorem execCanDecode_taggedFails {b : FrameBuf} {s : State} {code : BitVec 2} (hp : presentable b = true)
    (hrom : s.dlcTable = dlcTable) (h4 : 4 ≤ b.len.toNat) (ht : Tagged b) (h : TaggedFails s.cfg b code) :
    ∃ e : Status, e.code = code ∧ code ≠ 0 ∧ execCanDecode b s = raiseStatus .canDecode e s := by
  rw [execCanDecode_tagged hp h4 ht]
  rcases h with ⟨hn, rfl⟩ | ⟨hn, hd, rfl⟩ | ⟨hn, hd, hcut, rfl⟩
  · exact ⟨.truncated, rfl, by decide, decodeTagged_short hn⟩
  · exact ⟨.invalidDlc, rfl, by decide, decodeTagged_invalid hp hn (by rwa [dlcOf_heldByte_toNat])⟩
  · obtain ⟨len, hl, hlen⟩ := dlcLookup_heldByte hd
    exact ⟨.truncated, rfl, by decide, decodeTagged_cut hp hn (hrom ▸ hl) (by rwa [hlen])⟩

/-- Step 8 of R106. -/
theorem execCanDecode_longEnough {b : FrameBuf} {s : State} (hp : presentable b = true)
    (hrom : s.dlcTable = dlcTable) (ht : Tagged b) (h : LongEnough s.cfg b) :
    execCanDecode b s = finish (bufferResponse s.cfg b s.draws) s := by
  obtain ⟨hd, hn⟩ := h
  obtain ⟨len, hl, hlen⟩ := dlcLookup_heldByte hd
  have h64 := dlcLookup_le hl
  have hbl := (presentable_iff.1 hp).1
  have hofNat : BitVec.ofNat 7 (lenAt s.cfg b) = len := BitVec.eq_of_toNat_eq ((ofNat_lenAt_toNat hd).trans hlen.symm)
  rw [execCanDecode_tagged hp (by omega) ht, decodeTagged_ok hp (hrom ▸ hl) h64 (by omega),
    slice_eq_heldBytes (by omega), bufferResponse, hofNat, hlen]

/-- Some check from step 3 on fails, or none does. -/
theorem taggedFails_or_longEnough (m : DlcFieldMode) (b : FrameBuf) :
    (∃ code, TaggedFails m b code) ∨ LongEnough m b := by
  by_cases h28 : b.len.toNat < 28
  · exact .inl ⟨1, .inl ⟨h28, rfl⟩⟩
  · by_cases hd : 15 < dlcAt m b
    · exact .inl ⟨3, .inr (.inl ⟨by omega, hd, rfl⟩)⟩
    · by_cases hn : b.len.toNat < 28 + lenAt m b
      · exact .inl ⟨1, .inr (.inr ⟨by omega, by omega, hn, rfl⟩)⟩
      · exact .inr ⟨by omega, by omega⟩

theorem Status.code_injective : Function.Injective Status.code := by
  intro d e h
  cases d <;> cases e <;> cases h <;> rfl

/-! ### The gateway rows -/

/-- Each gateway row is the frame decoder with a recognized tag, and its buffer is the frame with that tag. -/
theorem gwRows_tag {f : GwFrame} {row : Instr × FrameBuf} (h : row ∈ gwRows f) :
    ∃ tag, recognized tag = true ∧ row.2 = f.buf tag ∧ ∀ s, exec row.1 s = decodeFrame tag f s := by
  simp only [gwRows, List.mem_cons, List.not_mem_nil, or_false] at h
  rcases h with rfl | rfl | rfl | rfl
  · exact ⟨tagCan20, by decide, rfl, fun _ => rfl⟩
  · exact ⟨tagCan20Crc, by decide, rfl, fun _ => rfl⟩
  · exact ⟨tagCanfd, by decide, rfl, fun _ => rfl⟩
  · exact ⟨tagCanfdCrc, by decide, rfl, fun _ => rfl⟩

/-- A gateway row has the effect of CAN.DECODE on its buffer. -/
theorem exec_gwRow {f : GwFrame} {row : Instr × FrameBuf} (h : row ∈ gwRows f) (s : State) :
    exec row.1 s = exec (.canDecode row.2) s := by
  obtain ⟨tag, ht, hbuf, hexec⟩ := gwRows_tag h
  rw [hexec, hbuf, decodeFrame_eq_execCanDecode ht]
  rfl

/-- A gateway row's buffer has one of the four tags. -/
theorem gwRow_tagged {f : GwFrame} {row : Instr × FrameBuf} (h : row ∈ gwRows f) : Tagged row.2 := by
  obtain ⟨tag, ht, hbuf, -⟩ := gwRows_tag h
  exact recognized_heldByte_iff.1 (hbuf ▸ ht)

/-- The ports carry a frame only where it reaches its tag. -/
theorem gwRow_four_le {f : GwFrame} {row : Instr × FrameBuf} (h : row ∈ gwRows f) (hp : presentable row.2 = true) :
    4 ≤ row.2.len.toNat := by
  obtain ⟨tag, -, hbuf, -⟩ := gwRows_tag h
  have hlen := (presentable_iff.1 hp).2
  rw [hbuf] at hlen ⊢
  simp only [GwFrame.buf, List.length_cons] at hlen ⊢
  omega

/-- Steps 3 to 8 of R106 read past the tag, at offset 21 and above. -/
theorem decodeTagged_buf (f : GwFrame) (tag : Byte) (s : State) :
    decodeTagged tag (f.buf tag) s = decodeTagged tag (f.buf 0) s := rfl

/-- The outcome of every tag is the same error, the same fault, or the same frame but for the tag. -/
def TagInFrameAlone (s : State) (o : Byte → StepOutcome) : Prop :=
  (∃ e, e ≠ .ok ∧ ∀ tag, o tag = raiseStatus .canDecode e s) ∨
  (∀ tag, o tag = .fault .bufferRead) ∨
  (∃ F W d len data, ∀ tag, o tag = finish (frameResponse tag F W d len data s.draws) s)

/-- No check from step 3 on and no port but `frame_type` looks at the tag (R101, R111, R114). -/
theorem decodeTagged_tagInFrameAlone (b : FrameBuf) (s : State) :
    TagInFrameAlone s fun tag => decodeTagged tag b s := by
  by_cases h28 : b.len.toNat < 28
  · exact .inl ⟨.truncated, by decide, fun _ => decodeTagged_short h28⟩
  · simp only [TagInFrameAlone, decodeTagged, Config.frameHdrBytes, h28, if_false]
    split
    next F W b21 _ _ _ =>
      simp only [decodeData]
      split
      next => exact .inl ⟨.invalidDlc, by decide, fun _ => rfl⟩
      next len _ =>
        split
        · exact .inl ⟨.truncated, by decide, fun _ => rfl⟩
        · split
          next data _ => exact .inr (.inr ⟨F, W, dlcOf s.cfg b21, len, data, fun _ => rfl⟩)
          next => exact .inr (.inl fun _ => rfl)
    next => exact .inr (.inl fun _ => rfl)

/-- Nor does the check of a gateway frame's length. -/
theorem decodeFrame_tagInFrameAlone (f : GwFrame) (s : State) : TagInFrameAlone s fun tag => decodeFrame tag f s := by
  by_cases h4 : f.len.toNat < 4
  · exact .inl ⟨.truncated, by decide, fun _ => if_pos h4⟩
  · have heq : ∀ tag, decodeFrame tag f s = decodeTagged tag (f.buf 0) s := fun tag =>
      (if_neg h4).trans (decodeTagged_buf f tag s)
    simpa only [heq] using decodeTagged_tagInFrameAlone (f.buf 0) s

end Sys2Proof.Machine
end

section
/-! PROOFS. The statements about the gateway frame decoder (41_can_gateway.md). -/

namespace Sys2Proof.Proofs

open Sys2Proof.Machine Sys2Proof.Claims

/-! ### How CAN.DECODE responds -/

/-- An instruction with the effect of another responds as it does. -/
theorem responds_of_exec_eq {i j : Instr} {s : State} {P : Response → Prop} (h : exec i s = exec j s)
    (hj : Responds j s P) : Responds i s P := by
  rwa [Responds, h]

/-- An instruction has one response in a state. -/
theorem holds_of_responds {i : Instr} {s : State} {q : Response} {P : Response → Prop} (h : Responds i s P)
    (hq : exec i s = .next (s.respond q)) : P q := by
  obtain ⟨t, r, ht, hr, hP, -⟩ := h
  obtain rfl : s.respond q = t := by simpa [hq] using ht
  obtain rfl : q = r := by simpa using hr
  exact hP

theorem canDecode_responds_short {b : FrameBuf} {s : State} (h : b.len.toNat < 4) :
    Responds (.canDecode b) s (CarriesError 1) :=
  responds_of_finish (execCanDecode_short h) ⟨rfl, rfl, by decide⟩

theorem canDecode_responds_untagged {b : FrameBuf} {s : State} (hp : presentable b = true) (h4 : 4 ≤ b.len.toNat)
    (ht : ¬Tagged b) : Responds (.canDecode b) s (CarriesError 2) :=
  responds_of_finish (execCanDecode_untagged hp h4 ht) ⟨rfl, rfl, by decide⟩

theorem canDecode_responds_taggedFails {b : FrameBuf} {s : State} {code : BitVec 2} (hp : presentable b = true)
    (hrom : s.dlcTable = dlcTable) (h4 : 4 ≤ b.len.toNat) (ht : Tagged b) (h : TaggedFails s.cfg b code) :
    Responds (.canDecode b) s (CarriesError code) := by
  obtain ⟨e, he, h0, hexec⟩ := execCanDecode_taggedFails hp hrom h4 ht h
  exact responds_of_finish hexec ⟨rfl, he, h0⟩

/-- Settles O15: every check passes, and the response is the buffer's (`bufferResponse_carriesFrame`). -/
theorem canDecodeAnswersTheFrame : Obligations.CanDecodeAnswersTheFrame :=
  fun _ s hp hrom ht hlong =>
    responds_of_finish (execCanDecode_longEnough hp hrom ht hlong) (bufferResponse_carriesFrame hlong.1 s.draws)

/-- Settles O17: the request's instruction is CAN.DECODE of its buffer, which has one response, and that is as the steps
say. -/
theorem canDecodeRequestIsAnsweredStepByStep : Obligations.CanDecodeRequestIsAnsweredStepByStep := by
  intro s r hpend hn ho hp hrom
  obtain ⟨t, ht⟩ := execCanDecode_answers hp hrom
  obtain ⟨q, rfl⟩ := exec_eq_respond (i := .canDecode r.frameBuf) ht
  have hstep : step s = .next (s.respond q) :=
    (step_pending_decoded hpend hn (decode_canDecode ho hp)).trans ((exec_decodeBuffer _ s).trans ht)
  refine ⟨s.respond q, q, hstep, rfl, respond_leavesRest s q, fun h => ?_, fun h4 htag => ?_, fun h4 htag =>
    ⟨fun code hfail => ?_, fun hlong => ?_⟩⟩
  · exact holds_of_responds (canDecode_responds_short h) ht
  · exact holds_of_responds (canDecode_responds_untagged hp h4 htag) ht
  · exact holds_of_responds (canDecode_responds_taggedFails hp hrom h4 htag hfail) ht
  · exact holds_of_responds (canDecodeAnswersTheFrame _ s hp hrom htag hlong) ht

/-- Two buffers with one error answer alike. -/
theorem canDecode_sameAnswer_of_error {b c : FrameBuf} {s : State} {e : Status}
    (hb : execCanDecode b s = raiseStatus .canDecode e s) (hc : execCanDecode c s = raiseStatus .canDecode e s) :
    SameAnswer (.canDecode b) (.canDecode c) s :=
  sameAnswer_of_exec_eq hb hc

/-- Settles O23: the checks look at the length, the tag and the DLC, which are the same, and so the two buffers fail
alike or carry one frame (`bufferResponse_answer_congr`). -/
theorem uninterpretedBytesChangeNothing : Obligations.UninterpretedBytesChangeNothing := by
  intro b c s hb hc hrom hlen htag hdlc hflags hbytes
  by_cases h4 : b.len.toNat < 4
  · exact canDecode_sameAnswer_of_error (execCanDecode_short h4) (execCanDecode_short (hlen ▸ h4))
  have h4b : 4 ≤ b.len.toNat := by omega
  have h4c : 4 ≤ c.len.toNat := hlen ▸ h4b
  have htagged : Tagged b ↔ Tagged c := by rw [Tagged, Tagged, htag]
  by_cases ht : Tagged b
  case neg =>
    exact canDecode_sameAnswer_of_error (execCanDecode_untagged hb h4b ht)
      (execCanDecode_untagged hc h4c (htagged.not.1 ht))
  have hlenAt : lenAt s.cfg b = lenAt s.cfg c := by rw [lenAt, lenAt, hdlc]
  rcases taggedFails_or_longEnough s.cfg b with ⟨code, hfail⟩ | hlong
  · have hfail' : TaggedFails s.cfg c code := by rwa [TaggedFails, ← hlen, ← hdlc, ← hlenAt]
    obtain ⟨e, he, -, hexec⟩ := execCanDecode_taggedFails hb hrom h4b ht hfail
    obtain ⟨e', he', -, hexec'⟩ := execCanDecode_taggedFails hc hrom h4c (htagged.1 ht) hfail'
    obtain rfl : e = e' := Status.code_injective (he.trans he'.symm)
    exact canDecode_sameAnswer_of_error hexec hexec'
  · have hlong' : LongEnough s.cfg c := by rwa [LongEnough, ← hlen, ← hdlc, ← hlenAt]
    have hanswer := bufferResponse_answer_congr hlong.1 htag hdlc hflags hbytes s.draws
    exact ⟨_, _, execCanDecode_longEnough hb hrom ht hlong, execCanDecode_longEnough hc hrom (htagged.1 ht) hlong',
      congrArg some hanswer, nofun, respond_leavesRest s _, respond_leavesRest s _⟩

/-! ### The gateway rows -/

/-- Settles O21: exec of a row is exec of CAN.DECODE on the row's buffer. -/
theorem gatewayRowsAreCanDecode : Obligations.GatewayRowsAreCanDecode :=
  fun _ s _ hrow => exec_gwRow hrow s

/-- Settles O19: a row has the effect of CAN.DECODE on its buffer, and the buffer has one of the four tags. -/
theorem gatewayRowsAnswerTheFrame : Obligations.GatewayRowsAnswerTheFrame :=
  fun _ s row hrow hp hrom hlong =>
    responds_of_exec_eq (exec_gwRow hrow s) (canDecodeAnswersTheFrame row.2 s hp hrom (gwRow_tagged hrow) hlong)

/-- Settles O20, as O19: the first two checks of R106 pass on a row's buffer. -/
theorem gatewayRowsFailInOrder : Obligations.GatewayRowsFailInOrder :=
  fun _ s _ _ hrow hp hrom hfail =>
    responds_of_exec_eq (exec_gwRow hrow s)
      (canDecode_responds_taggedFails hp hrom (gwRow_four_le hrow hp) (gwRow_tagged hrow) hfail)

/-- Settles O22: on one frame every tag fails alike, or every tag answers one frame but for the tag
(`decodeFrame_tagInFrameAlone`). -/
theorem tagChangesFrameTypeAlone : Obligations.TagChangesFrameTypeAlone := by
  intro f s a b t ha hb h
  obtain ⟨ta, -, hbufa, hexeca⟩ := gwRows_tag ha
  obtain ⟨tb, -, hbufb, hexecb⟩ := gwRows_tag hb
  rw [hexeca] at h
  rw [hexecb, hbufa, hbufb]
  rcases decodeFrame_tagInFrameAlone f s with ⟨e, he, hall⟩ | hall | ⟨F, W, d, len, data, hall⟩
  · obtain rfl := raiseStatus_eq_next.1 ((hall ta).symm.trans h)
    have hanswer : (s.respond (undriven .canDecode e s.draws)).answer = some (.error e) :=
      congrArg some (answer_of_error he)
    exact ⟨_, hall tb, .inl ⟨e, hanswer, hanswer⟩⟩
  · exact absurd ((hall ta).symm.trans h) nofun
  · obtain rfl := finish_eq_next.1 ((hall ta).symm.trans h)
    exact ⟨_, hall tb, .inr ⟨_, _, rfl, rfl, rfl, rfl, rfl⟩⟩

/-! ### DLC.LEN -/

/-- Settles O14: the lookup finds the table's length up to 15 and nothing above. -/
theorem dlcLenReadsTheTable : Obligations.DlcLenReadsTheTable := by
  refine ⟨fun _ => decode_dlcLen, fun d s hrom => ⟨fun hd => ?_, fun hd => ?_⟩⟩
  · obtain ⟨len, hl, hlen⟩ := dlcLookup_dlcTable hd
    have hexec : exec (.dlcLen d) s = finish { undriven .dlcLen .ok s.draws with len := len } s := by
      simp [exec, execDlcLen, hrom, hl]
    exact responds_of_finish hexec ⟨rfl, rfl, hlen⟩
  · have hexec : exec (.dlcLen d) s = raiseStatus .dlcLen .invalidDlc s := by
      simp [exec, execDlcLen, dlcLookup_eq_none.2 hd]
    exact responds_of_finish hexec ⟨rfl, rfl⟩

end Sys2Proof.Proofs
end

section
/-! SUPPORT. A run from a legal state goes on, and which checks give INVALID_DLC, for the statements of
60_exceptions.md. -/

namespace Sys2Proof.Machine

open Sys2Proof.Claims

/-! ### A legal state takes a step -/

/-- A step takes at most the first action from the Host's queue. -/
theorem step_inputs_suffix {s t : State} (h : step s = .next t) : t.inputs <:+ s.inputs := by
  rcases step_cases h with ⟨_, -, rfl⟩ | ⟨_, _, _, -, -, -, rfl⟩ |
    ⟨-, ⟨-, rfl⟩ | ⟨_, _, -, -, rfl⟩ | ⟨_, -, rfl⟩⟩
  · exact List.drop_suffix 1 s.inputs
  · exact List.suffix_rfl
  · exact List.suffix_rfl
  · exact List.drop_suffix 1 s.inputs
  · exact List.drop_suffix 1 s.inputs

/-- What the Host still has to issue after a step it had to issue before. -/
theorem State.HostKeepsPorts.step {s t : State} (h : s.HostKeepsPorts) (hst : step s = .next t) : t.HostKeepsPorts :=
  fun r hr => h r ((step_inputs_suffix hst).subset hr)

/-- The Host's move goes through when the request it issues is carried. -/
theorem hostMove_answers {s : State} (h : s.HostKeepsPorts) : ∃ t, hostMove s = .next t := by
  unfold hostMove
  split
  next => exact ⟨_, rfl⟩
  next r rest hi => exact ⟨_, hostIssue_of_carried (h r (by simp [hi])) s⟩
  next => exact ⟨_, rfl⟩
  next => exact ⟨_, rfl⟩

/-- A legal state whose Host keeps to the ports takes a step: the reset, BlockRespond of a carried request, or
the Host's move. -/
theorem State.Inv.step_answers {s : State} (hs : s.Inv) (hk : s.HostKeepsPorts) : ∃ t, step s = .next t := by
  by_cases hreset : s.inputs.head? = some .reset
  · obtain ⟨rest, hi⟩ := List.head?_eq_some_iff.1 hreset
    exact ⟨_, step_reset hi⟩
  · cases hp : s.pending with
    | none => exact step_idle hp ▸ hostMove_answers hk
    | some r =>
      obtain ⟨q, hq, -⟩ := step_answers_pending hs.rom hp hreset (hs.pending r hp)
      exact ⟨_, hq⟩

/-! ### Where INVALID_DLC comes from -/

/-- Only FULL_BYTE forms a DLC above 15 (41_can_gateway.md R103). -/
theorem eq_fullByte_of_dlcAt {m : DlcFieldMode} {b : FrameBuf} (h : 15 < dlcAt m b) : m = .fullByte := by
  cases m with
  | lowNibble => simp only [dlcAt] at h; omega
  | fullByte => rfl

/-- INVALID_DLC is code 3 (60_exceptions.md R130). -/
theorem status_eq_invalidDlc_iff {e : Status} : e = .invalidDlc ↔ e.code = 3 :=
  (Status.code_injective.eq_iff (b := .invalidDlc)).symm

/-- Of the checks from step 3 of R106 on, the one that the DLC fails gives code 3. -/
theorem code_eq_three_iff_of_taggedFails {m : DlcFieldMode} {b : FrameBuf} {code : BitVec 2}
    (h : TaggedFails m b code) : code = 3 ↔ 28 ≤ b.len.toNat ∧ 15 < dlcAt m b := by
  rcases h with ⟨hn, rfl⟩ | ⟨hn, hd, rfl⟩ | ⟨hn, hd, -, rfl⟩
  · exact iff_of_false (by decide) (by omega)
  · exact iff_of_true rfl ⟨hn, hd⟩
  · exact iff_of_false (by decide) (by omega)

end Sys2Proof.Machine
end

section
/-! PROOFS. The statements about statuses and stops (60_exceptions.md). -/

namespace Sys2Proof.Proofs

open Sys2Proof.Machine Sys2Proof.Claims

/-- Settles O31, by induction on the steps: a legal state takes a step (`State.Inv.step_answers`), and the step
leaves it legal (O30) and the Host's queue within the ports. -/
theorem legalRunsNeverStop : Obligations.LegalRunsNeverStop := by
  intro k
  induction k with
  | zero => exact fun s _ _ => ⟨s, rfl⟩
  | succ k ih =>
    intro s hs hk
    obtain ⟨t, ht⟩ := hs.step_answers hk
    obtain ⟨u, hu⟩ := ih t (everyStepKeepsTheLegalStates s t hs ht) (hk.step ht)
    exact ⟨u, (run_succ_of_step ht).trans hu⟩

/-- Settles O16: the response of each failing check. -/
theorem canDecodeFirstFailingCheckWins : Obligations.CanDecodeFirstFailingCheckWins :=
  fun _ _ hp hrom => ⟨canDecode_responds_short, canDecode_responds_untagged hp,
    fun _ => canDecode_responds_taggedFails hp hrom⟩

/-- An instruction that answers ends with the response that is then held. -/
theorem exec_eq_respond_of_resp {i : Instr} {s t : State} {r : Response} (h : exec i s = .next t)
    (hr : t.resp = some r) : exec i s = .next (s.respond r) := by
  obtain ⟨q, rfl⟩ := exec_eq_respond h
  obtain rfl : q = r := by simpa using hr
  exact h

/-- The status of DLC.LEN depends on the DLC alone, whatever the table holds. -/
theorem dlcLen_responds_invalidDlc_iff (d : Byte) (s : State) :
    Responds (.dlcLen d) s fun r => r.status = .invalidDlc ↔ 15 < d.toNat := by
  cases hl : dlcLookup s.dlcTable d with
  | none =>
    have hexec : exec (.dlcLen d) s = raiseStatus .dlcLen .invalidDlc s := by simp [exec, execDlcLen, hl]
    exact responds_of_finish hexec (iff_of_true rfl (dlcLookup_eq_none.1 hl))
  | some len =>
    have hexec : exec (.dlcLen d) s = finish { undriven .dlcLen .ok s.draws with len := len } s := by
      simp [exec, execDlcLen, hl]
    exact responds_of_finish hexec (iff_of_false nofun fun hd => by simp [dlcLookup_eq_none.2 hd] at hl)

/-- CAN.DECODE answers code 3 where the first failing check is the DLC's. -/
theorem canDecode_code_eq_three_iff {b : FrameBuf} {s : State} {r : Response} (hp : presentable b = true)
    (hrom : s.dlcTable = dlcTable) (h : exec (.canDecode b) s = .next (s.respond r)) :
    r.status.code = 3 ↔ Tagged b ∧ 28 ≤ b.len.toNat ∧ 15 < dlcAt s.cfg b := by
  by_cases h4 : b.len.toNat < 4
  · obtain ⟨-, hcode, -⟩ := holds_of_responds (canDecode_responds_short h4) h
    exact iff_of_false (by simp [hcode]) (by omega)
  have h4 : 4 ≤ b.len.toNat := by omega
  by_cases ht : Tagged b
  case neg =>
    obtain ⟨-, hcode, -⟩ := holds_of_responds (canDecode_responds_untagged hp h4 ht) h
    exact iff_of_false (by simp [hcode]) (fun hall => ht hall.1)
  rcases taggedFails_or_longEnough s.cfg b with ⟨code, hfail⟩ | hlong
  · obtain ⟨-, hcode, -⟩ := holds_of_responds (canDecode_responds_taggedFails hp hrom h4 ht hfail) h
    rw [hcode, code_eq_three_iff_of_taggedFails hfail]
    exact (and_iff_right ht).symm
  · obtain ⟨-, hcode, -⟩ := holds_of_responds (canDecodeAnswersTheFrame b s hp hrom ht hlong) h
    obtain ⟨hd, -⟩ := hlong
    exact iff_of_false (by simp [hcode]) (by omega)

/-- Settles O18: DLC.LEN by its lookup, CAN.DECODE by its first failing check, and a DLC above 15 by the mode. -/
theorem invalidDlcIsRaisedOnlyAboveFifteen : Obligations.InvalidDlcIsRaisedOnlyAboveFifteen := by
  refine ⟨fun d s t r h hr => ?_, fun b s t r hp hrom h hr => ?_⟩
  · exact holds_of_responds (dlcLen_responds_invalidDlc_iff d s) (exec_eq_respond_of_resp h hr)
  · have hiff := status_eq_invalidDlc_iff.trans
      (canDecode_code_eq_three_iff hp hrom (exec_eq_respond_of_resp h hr))
    refine ⟨hiff, fun hinvalid => ?_⟩
    obtain ⟨-, -, hd⟩ := hiff.1 hinvalid
    exact eq_fullByte_of_dlcAt hd

end Sys2Proof.Proofs
end

section
/-! PROOFS. The statement about reset (70_reset_and_hazards.md). -/

namespace Sys2Proof.Proofs

open Sys2Proof.Machine Sys2Proof.Claims

/-- Settles O5: reset goes before BlockRespond, so whatever is pending the step is `resetBlock` after the Host's action
leaves the queue (`step_reset`). -/
theorem resetDiscardsThePendingRequest : Obligations.ResetDiscardsThePendingRequest := by
  intro s rest hi
  have hrest : s.popInput.resetBlock.inputs = rest := by simp [hi]
  exact ⟨s.popInput.resetBlock, step_reset hi, resetBlock_pending _, resetBlock_resp _, resetBlock_cfg _,
    resetBlock_dlcTable _, hrest⟩

end Sys2Proof.Proofs
end
